-- ==== Sys2Proof/Word.lean ====
section
/-! DEFINITION. The one data width of the CORE ISA (00_scope.md R8, R11): every register, memory cell, operand byte,
opcode and the flags register is an unsigned 8-bit value. -/

namespace Sys2Proof

/-- An 8-bit unsigned value (R8 `XLEN`, R11). -/
abbrev Byte := BitVec 8

/-- `u8(v) = v mod 256` (R11): brings a mathematical integer back to 8 bits. -/
def u8 (v : Nat) : Byte := BitVec.ofNat 8 v

end Sys2Proof
end

