-- ==== Sys2Proof/Syntax.lean ====
section
/-! DEFINITION. The instructions of the CORE ISA: the 20 mnemonics (30_encoding.md R60, R67), their formats (R63), and
the instruction terms, one constructor per row of spec/opcode_table.json. Operands are whole bytes (R64, R65): a
register operand byte of 8 to 255 is a term too, which the machine answers with REGISTER (40_execution_loop.md R74). -/

namespace Sys2Proof

/-- The four instruction formats (R63). -/
inductive Format where
  /-- opcode alone -/
  | f0
  /-- opcode, register byte -/
  | f1r
  /-- opcode, register byte regA, register byte regB -/
  | f2rr
  /-- opcode, register byte, immediate byte -/
  | f2ri
deriving DecidableEq, Repr

/-- The number of operand bytes of a format (R63). -/
def Format.operandCount : Format → Nat
  | .f0 => 0
  | .f1r => 1
  | .f2rr => 2
  | .f2ri => 2

/-- The 20 mnemonics, in the order of the table of R60. -/
inductive Mnemonic where
  | hlt | ret | push | pop | prn | call | jmp | jeq | jne | not
  | ldi | add | mul | mod | cmp | and | or | xor | shl | shr
deriving DecidableEq, Repr

/-- The closed list of registered instructions (R67, 40_execution_loop.md R80). -/
def Mnemonic.all : List Mnemonic :=
  [.hlt, .ret, .push, .pop, .prn, .call, .jmp, .jeq, .jne, .not,
   .ldi, .add, .mul, .mod, .cmp, .and, .or, .xor, .shl, .shr]

/-- The format column of R60. -/
def Mnemonic.format : Mnemonic → Format
  | .hlt => .f0
  | .ret => .f0
  | .push => .f1r
  | .pop => .f1r
  | .prn => .f1r
  | .call => .f1r
  | .jmp => .f1r
  | .jeq => .f1r
  | .jne => .f1r
  | .not => .f1r
  | .ldi => .f2ri
  | .add => .f2rr
  | .mul => .f2rr
  | .mod => .f2rr
  | .cmp => .f2rr
  | .and => .f2rr
  | .or => .f2rr
  | .xor => .f2rr
  | .shl => .f2rr
  | .shr => .f2rr

/-- The operand_count column of R60. -/
def Mnemonic.operandCount (k : Mnemonic) : Nat := k.format.operandCount

/-- The sets_pc column of R60: true for CALL, RET, JMP, JEQ and JNE only (R59). -/
def Mnemonic.setsPc : Mnemonic → Bool
  | .ret => true
  | .call => true
  | .jmp => true
  | .jeq => true
  | .jne => true
  | .hlt => false
  | .push => false
  | .pop => false
  | .prn => false
  | .not => false
  | .ldi => false
  | .add => false
  | .mul => false
  | .mod => false
  | .cmp => false
  | .and => false
  | .or => false
  | .xor => false
  | .shl => false
  | .shr => false

/-- An instruction with its operand bytes (R63): `r`, `a`, `b` are register operand bytes, `i` the immediate of LDI. -/
inductive Instr where
  | hlt
  | ret
  | push (r : Byte)
  | pop (r : Byte)
  | prn (r : Byte)
  | call (r : Byte)
  | jmp (r : Byte)
  | jeq (r : Byte)
  | jne (r : Byte)
  | not (r : Byte)
  | ldi (r i : Byte)
  | add (a b : Byte)
  | mul (a b : Byte)
  | mod (a b : Byte)
  | cmp (a b : Byte)
  | and (a b : Byte)
  | or (a b : Byte)
  | xor (a b : Byte)
  | shl (a b : Byte)
  | shr (a b : Byte)
deriving DecidableEq, Repr

/-- The mnemonic of an instruction. -/
def Instr.mnemonic : Instr → Mnemonic
  | .hlt => .hlt
  | .ret => .ret
  | .push _ => .push
  | .pop _ => .pop
  | .prn _ => .prn
  | .call _ => .call
  | .jmp _ => .jmp
  | .jeq _ => .jeq
  | .jne _ => .jne
  | .not _ => .not
  | .ldi _ _ => .ldi
  | .add _ _ => .add
  | .mul _ _ => .mul
  | .mod _ _ => .mod
  | .cmp _ _ => .cmp
  | .and _ _ => .and
  | .or _ _ => .or
  | .xor _ _ => .xor
  | .shl _ _ => .shl
  | .shr _ _ => .shr

/-- The operand bytes in encoding order (R63): the bytes at A+1, A+2. -/
def Instr.operands : Instr → List Byte
  | .hlt => []
  | .ret => []
  | .push r => [r]
  | .pop r => [r]
  | .prn r => [r]
  | .call r => [r]
  | .jmp r => [r]
  | .jeq r => [r]
  | .jne r => [r]
  | .not r => [r]
  | .ldi r i => [r, i]
  | .add a b => [a, b]
  | .mul a b => [a, b]
  | .mod a b => [a, b]
  | .cmp a b => [a, b]
  | .and a b => [a, b]
  | .or a b => [a, b]
  | .xor a b => [a, b]
  | .shl a b => [a, b]
  | .shr a b => [a, b]

/-- The operand bytes that the format makes register indices, in the order they are checked (R74): the immediate of
F2RI is not one. -/
def Instr.regOperands : Instr → List Byte
  | .hlt => []
  | .ret => []
  | .push r => [r]
  | .pop r => [r]
  | .prn r => [r]
  | .call r => [r]
  | .jmp r => [r]
  | .jeq r => [r]
  | .jne r => [r]
  | .not r => [r]
  | .ldi r _ => [r]
  | .add a b => [a, b]
  | .mul a b => [a, b]
  | .mod a b => [a, b]
  | .cmp a b => [a, b]
  | .and a b => [a, b]
  | .or a b => [a, b]
  | .xor a b => [a, b]
  | .shl a b => [a, b]
  | .shr a b => [a, b]

/-- The length in bytes, 1 + operand_count (R62). -/
def Instr.length (i : Instr) : Nat := 1 + i.mnemonic.operandCount

end Sys2Proof
end

