-- ==== Sys2Proof/Config.lean ====
section
/-! DEFINITION. The implementation parameters of 00_scope.md R8, at the spec's defaults, and the one value that stays
free. `NREGS` and `XLEN` are fixed by R8; `R_INIT` is an argument of Machine.init (log 1); `STEP_CYCLES` is left out
(R144, log 7). -/

namespace Sys2Proof

/-- `MEM_SIZE` (R8, R39): the number of memory cells; the spec's default (D2, log 3). UNVERIFIED by the spec's source,
which says "at least 256". -/
abbrev Config.memSize : Nat := 256

/-- `PC_WIDTH` (R8, R26): wide enough for `MEM_SIZE + 2`; 9 when `MEM_SIZE = 256` (D3). -/
abbrev Config.pcWidth : Nat := 9

/-- The program counter's type (R26). -/
abbrev Pc := BitVec Config.pcWidth

/-- `SP_INIT` (R8, R38): the reset value of R7; the spec's default (D5, log 3). UNVERIFIED by the spec's source, whose
literals are unaudited (R3). -/
def Config.spInit : Byte := 0xF3

/-- An assignment of an opcode byte to each mnemonic (R8, R61). -/
abbrev OpcodeMap := Mnemonic → Byte

/-- `OPCODE_MAP` (R60): the spec's default byte values (D1, log 2). UNVERIFIED: the spec marks them as general knowledge;
decoding and encoding are therefore written over any map. -/
def Config.opcodeMap : OpcodeMap
  | .hlt => 0x01
  | .ret => 0x11
  | .push => 0x45
  | .pop => 0x46
  | .prn => 0x47
  | .call => 0x50
  | .jmp => 0x54
  | .jeq => 0x55
  | .jne => 0x56
  | .not => 0x69
  | .ldi => 0x82
  | .add => 0xA0
  | .mul => 0xA2
  | .mod => 0xA4
  | .cmp => 0xA7
  | .and => 0xA8
  | .or => 0xAA
  | .xor => 0xAB
  | .shl => 0xAC
  | .shr => 0xAD

/-- What an address that nothing has written reads as: memory is "zero-initialized" (R39, R43). -/
def Config.unwritten : Byte := 0

/-- A free value (R8 `FAULT_EXIT_STATUS`, D24, log 6): it has no body, so nothing can be proved of it. -/
opaque Config.freeExitStatus : Nat

/-- `FAULT_EXIT_STATUS` (R136): any non-zero value; one more than a free number (log 6). -/
def Config.faultExitStatus : Nat := Config.freeExitStatus + 1

end Sys2Proof
end

