-- ==== Sys2Proof/Machine/State.lean ====
section
/-! DEFINITION. The architectural state, whole (10_state.md, the tuple before R20), the reasons a step of the model can
stop, and the state right after reset (R38). -/

namespace Sys2Proof.Machine

/-- Memory (20_memory.md R39): its non-zero cells, by strictly rising address; an unlisted address reads as
`Config.unwritten`. The form is `Memory.wf` of Ops.lean. -/
abbrev Memory := List Host.Cell

/-- The run status (R32). -/
inductive RunStatus where
  | running
  | halted
  | faulted
deriving DecidableEq, Repr

/-- The halt cause other than none (R33). -/
inductive HaltCause where
  | hlt
  | divZero
deriving DecidableEq, Repr

/-- The subkinds of OutOfBoundsAccess (60_exceptions.md R118). -/
inductive OobSubkind where
  | fetch
  | operand
  | register
  | returnAddress
  | data
deriving DecidableEq, Repr

/-- The fatal error kinds with their subkind (R34, R116, R118): UnknownOpcode has none. -/
inductive FatalError where
  | unknownOpcode
  | outOfBoundsAccess (sub : OobSubkind)
deriving DecidableEq, Repr

/-- The fault record `(kind, subkind, fpc, detail)` (R34): `detail` is the offending byte, address or index. -/
structure FaultRecord where
  error : FatalError
  fpc : Pc
  detail : Nat
deriving DecidableEq, Repr

/-- The architectural state: nothing else is architectural (10_state.md). `regs[7]` is SP (R21). -/
structure State where
  regs : Vector Byte 8
  pc : Pc
  fl : Byte
  mem : Memory
  status : RunStatus
  cause : Option HaltCause
  fault : Option FaultRecord
  out : List Byte
deriving DecidableEq, Repr

/-- Why a step of the model has no next state. No instruction raises these: the errors of the CORE are next states
(60_exceptions.md R122). They are how "there is no step" of R83 shows (log 5, safe). -/
inductive Fault where
  /-- `step` raises it when the status is Halted: there is no step (R83). Safe. -/
  | noStepHalted
  /-- `step` raises it when the status is Faulted: there is no step (R83). Safe. -/
  | noStepFaulted
deriving DecidableEq, Repr

/-- Why the model has no meaning for an instruction. -/
inductive Refusal where
  /-- `exec` answers it for an instruction that has no meaning in the model: none does, so nothing raises it. Safe. -/
  | notModelled (mnemonic : String)
deriving DecidableEq, Repr

/-- The state after reset with an empty image (R38, R137). R0 to R6, whose reset values the spec leaves open, are 0
(log 1, DESIGN CHOICE, unsafe): one of the draws the spec admits; `init` of Init.lean takes any draw and any image. -/
def State.reset : State :=
  { regs := #v[0, 0, 0, 0, 0, 0, 0, Config.spInit]
    pc := 0
    fl := 0
    mem := []
    status := .running
    cause := none
    fault := none
    out := [] }

end Sys2Proof.Machine
end

