-- ==== Sys2Proof/Machine/Ops.lean ====
section
/-! DEFINITION. The named operations over memory, registers, pc, output and status (00_scope.md R12, 20_memory.md R40), and
raising an error as one shared operation (60_exceptions.md R122). There is no return from an error (R126). -/

namespace Sys2Proof.Machine

/-! ### Memory (R39, R40, R50) -/

/-- The byte at address `x`: the listed one, else what an unwritten cell reads as. -/
def Memory.read : Memory → Nat → Byte
  | [], _ => Config.unwritten
  | c :: m, x => if x = c.1 then c.2 else Memory.read m x

/-- Lists the cell `(x, v)` before the first cell of a higher address. -/
def Memory.insertCell : Memory → Nat → Byte → Memory
  | [], x, v => [(x, v)]
  | c :: m, x, v => if x < c.1 then (x, v) :: c :: m else c :: Memory.insertCell m x v

/-- Stores `v` in cell `x` and changes no other cell (R40), keeping the canonical form: a byte equal to what an unwritten
cell reads as is not listed. -/
def Memory.write (m : Memory) (x : Nat) (v : Byte) : Memory :=
  if v = Config.unwritten then m.filter (fun c => c.1 != x)
  else Memory.insertCell (m.filter fun c => c.1 != x) x v

/-- The canonical form: addresses strictly rising and below MEM_SIZE, no cell listed that reads as unwritten. -/
def Memory.wf : Memory → Bool
  | [] => true
  | c :: m => c.1 < Config.memSize && c.2 != Config.unwritten && m.all (fun d => c.1 < d.1) && Memory.wf m

/-- Stores bytes at ascending addresses from `a`: how the loader writes an image (00_scope.md R14, 20_memory.md R43). -/
def Memory.place : Memory → Nat → List Byte → Memory
  | m, _, [] => m
  | m, a, b :: bs => Memory.place (Memory.write m a b) (a + 1) bs

/-! ### Registers, pc, output, status -/

/-- A register index, 0..7 (10_state.md R20). -/
abbrev RegIdx := Fin 8

/-- R7, the stack pointer: an alias, not a separate register (R21). -/
def spIdx : RegIdx := 7

/-- `x[i]` (R12). No register is hardwired (R23). -/
def State.readReg (s : State) (r : RegIdx) : Byte := s.regs[r]

/-- `x[i] <- v` (R12, R24). -/
def State.writeReg (s : State) (r : RegIdx) (v : Byte) : State := { s with regs := s.regs.set r v }

/-- `SP` (R12, R21). -/
def State.sp (s : State) : Byte := s.readReg spIdx

/-- `SP <- u8(SP - 1)` (43_stack.md R102): wraps modulo 256. -/
def State.decSp (s : State) : State := s.writeReg spIdx (s.sp - 1)

/-- `SP <- u8(SP + 1)` (43_stack.md R102): wraps modulo 256. -/
def State.incSp (s : State) : State := s.writeReg spIdx (s.sp + 1)

/-- Phase 7 for an instruction of `n` operand bytes that does not set the PC (40_execution_loop.md R76):
`pc <- A + 1 + n`. No wrap can happen after a fetch that succeeded (R28, log 4). -/
def State.advance (s : State) (n : Nat) : State := { s with pc := s.pc + BitVec.ofNat Config.pcWidth (1 + n) }

/-- `pc <- v` for an 8-bit target (44_control.md R106). -/
def State.jump (s : State) (v : Byte) : State := { s with pc := v.setWidth Config.pcWidth }

/-- `Emit(v)`: appends to the output trace (R12, R35). -/
def State.emit (s : State) (v : Byte) : State := { s with out := s.out ++ [v] }

/-- `FL <- v` (R12). -/
def State.writeFl (s : State) (v : Byte) : State := { s with fl := v }

/-- `halt(cause)` (R12): the status becomes Halted with that cause. -/
def State.halt (s : State) (c : HaltCause) : State := { s with status := .halted, cause := some c }

/-! ### Raising an error (R122) -/

/-- What an instruction can raise (60_exceptions.md R116): UnsupportedAluOperation is never raised (R120). -/
inductive Raised where
  | unknownOpcode (detail : Byte)
  | outOfBounds (sub : OobSubkind) (detail : Nat)
  | divideByZero (detail : Byte)
deriving DecidableEq, Repr

/-- A fatal error: the status becomes Faulted and the record holds the error, the `pc` of the step and the detail (R122). -/
def State.faultWith (s : State) (e : FatalError) (detail : Nat) : State :=
  { s with status := .faulted, fault := some ⟨e, s.pc, detail⟩ }

/-- What a raise does to the state the step started from (R78, R122): nothing but status, cause and fault is written; the
detail of DivideByZero is recorded nowhere. -/
def State.raise (s : State) (e : Raised) : State :=
  match e with
  | .unknownOpcode d => s.faultWith .unknownOpcode d.toNat
  | .outOfBounds sub d => s.faultWith (.outOfBoundsAccess sub) d
  | .divideByZero _ => s.halt .divZero

/-- How a handler ends: with the state it built, or with a raise from the state the step started from (R78). -/
def outcomeOf (s : State) (r : Except Raised State) : Host.Outcome State Fault Refusal :=
  match r with
  | .ok t => .next t
  | .error e => .next (s.raise e)

/-! ### Bounds-checked access (R40) -/

/-- `MemRead(a, 1)` (R40). -/
def readMem (sub : OobSubkind) (s : State) (a : Nat) : Except Raised Byte :=
  if a < Config.memSize then .ok (Memory.read s.mem a) else .error (.outOfBounds sub a)

/-- `MemWrite(a, 1, v)` (R40). -/
def writeMem (sub : OobSubkind) (s : State) (a : Nat) (v : Byte) : Except Raised State :=
  if a < Config.memSize then .ok { s with mem := Memory.write s.mem a v } else .error (.outOfBounds sub a)

/-- `MemRead(SP, 1)` (R41, R102). -/
def loadAtSp (s : State) : Except Raised Byte := readMem .data s s.sp.toNat

/-- `MemWrite(SP, 1, v)` (R41, R102). -/
def storeAtSp (s : State) (v : Byte) : Except Raised State := writeMem .data s s.sp.toNat v

end Sys2Proof.Machine
end

