-- ==== Sys2Proof/Machine/Flags.lean ====
section
/-! DEFINITION. The flags byte FL (10_state.md R29) and the one computation that writes it, CMP's (41_alu.md R97). -/

namespace Sys2Proof.Machine

/-- FL after a comparison that found equal values: bit 0, E (R29, R97). -/
def flagsEqual : Byte := 0x01

/-- FL after a comparison that found the first value greater: bit 1, G (R29, R97). -/
def flagsGreater : Byte := 0x02

/-- FL after a comparison that found the first value less: bit 2, L (R29, R97). -/
def flagsLess : Byte := 0x04

/-- The whole flags byte that CMP writes, from the register values, unsigned (R97). -/
def compareFlags (va vb : Byte) : Byte :=
  if va = vb then flagsEqual else if va.toNat > vb.toNat then flagsGreater else flagsLess

/-- `FL.E` (R12, R29). -/
def State.flE (s : State) : Bool := s.fl.getLsbD 0

/-- `FL.G` (R12, R29). -/
def State.flG (s : State) : Bool := s.fl.getLsbD 1

/-- `FL.L` (R12, R29). -/
def State.flL (s : State) : Bool := s.fl.getLsbD 2

end Sys2Proof.Machine
end

