-- ==== Sys2Proof/WellFormed.lean ====
section
/-! DEFINITION. Which instruction terms are well formed: every register operand byte names a register (30_encoding.md R64,
10_state.md R25). The immediate of LDI is not checked (R65, 40_execution_loop.md R74). The constraints on an opcode
map (R61) are `OpcodeMap.Valid` of Decode.lean, which needs the decoder's fields. -/

namespace Sys2Proof

/-- A register operand byte is legal exactly when its value is in 0..7 (R25, R64). -/
def legalReg (b : Byte) : Bool := b.toNat < 8

/-- Every register operand of the instruction names a register (R64). -/
def Instr.wellFormed (i : Instr) : Bool := i.regOperands.all legalReg

end Sys2Proof
end

