-- ==== Sys2Proof/Machine/Operands.lean ====
section
/-! DEFINITION. The operand forms (30_encoding.md R63, R64) with phase 5, the register check, in the order of
40_execution_loop.md R74: `op1` first. An immediate (R65) is the byte itself and needs no operation. -/

namespace Sys2Proof.Machine

/-- The register that a legal operand byte names (R25): the whole byte is the index, nothing is masked (R64). -/
def regIdx (b : Byte) : RegIdx := Fin.ofNat 8 b.toNat

/-- F1R and the register of F2RI: checks one register operand, then runs the handler with its register (R74). -/
def withReg (b : Byte) (handler : RegIdx → Except Raised State) : Except Raised State :=
  if legalReg b then handler (regIdx b) else .error (.outOfBounds .register b.toNat)

/-- F2RR: checks `op1`, then `op2`, then runs the handler (R74). -/
def withRegs (a b : Byte) (handler : RegIdx → RegIdx → Except Raised State) : Except Raised State :=
  withReg a fun ra => withReg b fun rb => handler ra rb

end Sys2Proof.Machine
end

