-- ==== Sys2Proof/Machine/Alu.lean ====
section
/-! DEFINITION. The ALU (41_alu.md): pure functions on 8-bit unsigned values, each exact on the integers and brought back
to 8 bits (R24, R86), and the meanings of its ten instructions. The operations are a closed set (R87). -/

namespace Sys2Proof.Machine

/-- R88. -/
def aluAdd (va vb : Byte) : Byte := u8 (va.toNat + vb.toNat)

/-- R89. -/
def aluMul (va vb : Byte) : Byte := u8 (va.toNat * vb.toNat)

/-- R90, for a divisor that is not 0. -/
def aluMod (va vb : Byte) : Byte := u8 (va.toNat % vb.toNat)

/-- R91. -/
def aluAnd (va vb : Byte) : Byte := va &&& vb

/-- R92. -/
def aluOr (va vb : Byte) : Byte := va ||| vb

/-- R93. -/
def aluXor (va vb : Byte) : Byte := va ^^^ vb

/-- R94. -/
def aluNot (v : Byte) : Byte := u8 (255 - v.toNat)

/-- R95: the amount is the whole byte, not reduced modulo 8. -/
def aluShl (va vb : Byte) : Byte := u8 (va.toNat * 2 ^ vb.toNat)

/-- R96: the amount is the whole byte, not reduced modulo 8. -/
def aluShr (va vb : Byte) : Byte := u8 (va.toNat / 2 ^ vb.toNat)

/-- `regA <- ALU(op, regA, regB)` (R86), then the loop's advance over two operand bytes (R76). -/
def aluBinary (op : Byte → Byte → Byte) (a b : Byte) (s : State) : Host.Outcome State Fault Refusal :=
  outcomeOf s (withRegs a b fun ra rb =>
    .ok ((s.writeReg ra (op (s.readReg ra) (s.readReg rb))).advance 2))

/-- ADD (R88). -/
def execAdd (a b : Byte) (s : State) : Host.Outcome State Fault Refusal := aluBinary aluAdd a b s

/-- MUL (R89). -/
def execMul (a b : Byte) (s : State) : Host.Outcome State Fault Refusal := aluBinary aluMul a b s

/-- MOD (R90): a divisor of 0 raises DivideByZero with the divisor's index, before any write (R119). -/
def execMod (a b : Byte) (s : State) : Host.Outcome State Fault Refusal :=
  outcomeOf s (withRegs a b fun ra rb =>
    if s.readReg rb = 0 then .error (.divideByZero b)
    else .ok ((s.writeReg ra (aluMod (s.readReg ra) (s.readReg rb))).advance 2))

/-- AND (R91). -/
def execAnd (a b : Byte) (s : State) : Host.Outcome State Fault Refusal := aluBinary aluAnd a b s

/-- OR (R92). -/
def execOr (a b : Byte) (s : State) : Host.Outcome State Fault Refusal := aluBinary aluOr a b s

/-- XOR (R93). -/
def execXor (a b : Byte) (s : State) : Host.Outcome State Fault Refusal := aluBinary aluXor a b s

/-- NOT (R94). -/
def execNot (r : Byte) (s : State) : Host.Outcome State Fault Refusal :=
  outcomeOf s (withReg r fun rr => .ok ((s.writeReg rr (aluNot (s.readReg rr))).advance 1))

/-- SHL (R95). -/
def execShl (a b : Byte) (s : State) : Host.Outcome State Fault Refusal := aluBinary aluShl a b s

/-- SHR (R96). -/
def execShr (a b : Byte) (s : State) : Host.Outcome State Fault Refusal := aluBinary aluShr a b s

/-- CMP (R97): compares register values, never indices; writes FL whole and no register. -/
def execCmp (a b : Byte) (s : State) : Host.Outcome State Fault Refusal :=
  outcomeOf s (withRegs a b fun ra rb =>
    .ok ((s.writeFl (compareFlags (s.readReg ra) (s.readReg rb))).advance 2))

end Sys2Proof.Machine
end

