-- ==== Sys2Proof/Machine/Control.lean ====
section
/-! DEFINITION. The meanings of CALL, RET, JMP, JEQ, JNE and HLT (44_control.md). The first five write `pc` on every path
and the loop adds nothing (40_execution_loop.md R76). -/

namespace Sys2Proof.Machine

/-- CALL (R107): a return address above 255 raises RETURN_ADDRESS before any write; the target register is read after
the SP update, so CALL R7 jumps to the decremented SP. -/
def execCall (r : Byte) (s : State) : Host.Outcome State Fault Refusal :=
  outcomeOf s (withReg r fun rr =>
    if s.pc.toNat + 2 > 255 then .error (.outOfBounds .returnAddress (s.pc.toNat + 2))
    else
      match storeAtSp s.decSp (u8 (s.pc.toNat + 2)) with
      | .error e => .error e
      | .ok t => .ok (t.jump (t.readReg rr)))

/-- RET (R108): pops whatever is at SP. -/
def execRet (s : State) : Host.Outcome State Fault Refusal :=
  outcomeOf s (match loadAtSp s with
    | .error e => .error e
    | .ok v => .ok (s.jump v).incSp)

/-- JMP (R109). -/
def execJmp (r : Byte) (s : State) : Host.Outcome State Fault Refusal :=
  outcomeOf s (withReg r fun rr => .ok (s.jump (s.readReg rr)))

/-- JEQ (R110): the path not taken writes `A + 2`. -/
def execJeq (r : Byte) (s : State) : Host.Outcome State Fault Refusal :=
  outcomeOf s (withReg r fun rr => .ok (if s.flE then s.jump (s.readReg rr) else s.advance 1))

/-- JNE (R111): tests only the complement of E. -/
def execJne (r : Byte) (s : State) : Host.Outcome State Fault Refusal :=
  outcomeOf s (withReg r fun rr => .ok (if s.flE then s.advance 1 else s.jump (s.readReg rr)))

/-- HLT (R112): the loop advances `pc` to `A + 1`, then the machine halts (R77). -/
def execHlt (s : State) : Host.Outcome State Fault Refusal := outcomeOf s (.ok ((s.advance 0).halt .hlt))

end Sys2Proof.Machine
end

