-- ==== Sys2Proof/Machine/DataIO.lean ====
section
/-! DEFINITION. The meanings of LDI and PRN (42_data_io.md). -/

namespace Sys2Proof.Machine

/-- LDI (R100): the immediate is any byte and is never checked (R65). -/
def execLdi (r i : Byte) (s : State) : Host.Outcome State Fault Refusal :=
  outcomeOf s (withReg r fun rr => .ok ((s.writeReg rr i).advance 2))

/-- PRN (R101): the register's byte goes to the output trace. -/
def execPrn (r : Byte) (s : State) : Host.Outcome State Fault Refusal :=
  outcomeOf s (withReg r fun rr => .ok ((s.emit (s.readReg rr)).advance 1))

end Sys2Proof.Machine
end

