-- ==== Sys2Proof/Machine/Stack.lean ====
section
/-! DEFINITION. The meanings of PUSH and POP (43_stack.md): a full-descending stack through SP (R102), the statements in
the source's order (D16). -/

namespace Sys2Proof.Machine

/-- PUSH (R103): SP is decremented first; the register is read after, so PUSH R7 stores the decremented SP. -/
def execPush (r : Byte) (s : State) : Host.Outcome State Fault Refusal :=
  outcomeOf s (withReg r fun rr =>
    match storeAtSp s.decSp (s.decSp.readReg rr) with
    | .error e => .error e
    | .ok t => .ok (t.advance 1))

/-- POP (R104): the register is written first; SP is read after, so POP R7 leaves the popped byte plus 1. -/
def execPop (r : Byte) (s : State) : Host.Outcome State Fault Refusal :=
  outcomeOf s (withReg r fun rr =>
    match loadAtSp s with
    | .error e => .error e
    | .ok v => .ok ((s.writeReg rr v).incSp.advance 1))

end Sys2Proof.Machine
end

