-- ==== Sys2Proof/Decode.lean ====
section
/-! DEFINITION. The decoder and the dispatcher (40_execution_loop.md R70 to R73, R79, R80), then the encoder
(30_encoding.md R60, R63) and the assembler text (R68). Decoding is written over any opcode map and any byte source,
so that the machine's fetch and the decoding of a byte list are one definition. -/

namespace Sys2Proof

/-- The fields the decoder reads from an opcode byte (R57, R79). -/
structure OpcodeFields where
  /-- `ir[7:6]` (R58) -/
  operandCount : Nat
  /-- `ir[4]` (R59) -/
  setsPc : Bool
deriving DecidableEq, Repr

/-- `decode(ir) = (operand_count = ir[7:6], sets_pc = ir[4])` (R79): a pure bit extraction, defined on every byte; bits 5
and 3:0 have no meaning to it (R57). -/
def decodeOpcode (ir : Byte) : OpcodeFields := ⟨(ir.extractLsb' 6 2).toNat, ir.getLsbD 4⟩

/-- The constraints the source fixes on an opcode map (R61): injective, bits 7:6 the operand count, bit 4 sets_pc. -/
def OpcodeMap.Valid (m : OpcodeMap) : Prop :=
  (∀ j k : Mnemonic, m j = m k → j = k) ∧
  (∀ k : Mnemonic, (decodeOpcode (m k)).operandCount = k.operandCount) ∧
  (∀ k : Mnemonic, (decodeOpcode (m k)).setsPc = k.setsPc)

/-- The dispatcher (R80): the instruction registered for an opcode byte, none for an unknown opcode (R66). -/
def dispatch (m : OpcodeMap) (ir : Byte) : Option Mnemonic := Mnemonic.all.find? fun k => m k == ir

/-- The instruction of a mnemonic with operand bytes `op1`, `op2` (R63); a format with fewer operands ignores the rest. -/
def Mnemonic.instr (k : Mnemonic) (op1 op2 : Byte) : Instr :=
  match k with
  | .hlt => .hlt
  | .ret => .ret
  | .push => .push op1
  | .pop => .pop op1
  | .prn => .prn op1
  | .call => .call op1
  | .jmp => .jmp op1
  | .jeq => .jeq op1
  | .jne => .jne op1
  | .not => .not op1
  | .ldi => .ldi op1 op2
  | .add => .add op1 op2
  | .mul => .mul op1 op2
  | .mod => .mod op1 op2
  | .cmp => .cmp op1 op2
  | .and => .and op1 op2
  | .or => .or op1 op2
  | .xor => .xor op1 op2
  | .shl => .shl op1 op2
  | .shr => .shr op1 op2

/-- Why bytes are no instruction. -/
inductive DecodeError where
  /-- The byte at offset `k` does not exist: the opcode byte for `k = 0` (R70), an operand byte otherwise (R73). -/
  | missingByte (k : Nat)
  /-- The opcode byte is not registered (R71). -/
  | unknownOpcode (ir : Byte)
deriving DecidableEq, Repr

/-- Phase 4 for the `k`-th operand (R73): read only while `k <= n`; a byte that is not read is 0 and no handler uses it. -/
def operandAt (byteAt : Nat → Option Byte) (n k : Nat) : Except DecodeError Byte :=
  if k ≤ n then
    match byteAt k with
    | some b => .ok b
    | none => .error (.missingByte k)
  else .ok 0

/-- Phases 1 to 4 (R70 to R73, R81): opcode, dispatch check, decode, operand bytes in order. `byteAt k` is the byte at
offset `k` from the opcode, none where there is none. The register check is phase 5 and belongs to the machine (R74). -/
def decodeFrom (m : OpcodeMap) (byteAt : Nat → Option Byte) : Except DecodeError Instr :=
  match byteAt 0 with
  | none => .error (.missingByte 0)
  | some ir =>
    match dispatch m ir with
    | none => .error (.unknownOpcode ir)
    | some k =>
      match operandAt byteAt (decodeOpcode ir).operandCount 1 with
      | .error e => .error e
      | .ok op1 =>
        match operandAt byteAt (decodeOpcode ir).operandCount 2 with
        | .error e => .error e
        | .ok op2 => .ok (k.instr op1 op2)

/-- The instruction at the head of a byte list under the opcode map `m`. -/
def decodeWith (m : OpcodeMap) (bytes : List Byte) : Except DecodeError Instr := decodeFrom m fun k => bytes[k]?

/-- The instruction at the head of a byte list under the default opcode map (R60). -/
def decode (bytes : List Byte) : Except DecodeError Instr := decodeWith Config.opcodeMap bytes

/-- The bytes of an instruction at ascending addresses (R44, R63) under the opcode map `m`. -/
def encodeWith (m : OpcodeMap) (i : Instr) : List Byte := m i.mnemonic :: i.operands

/-- The bytes of an instruction under the default opcode map (R60). -/
def encode (i : Instr) : List Byte := encodeWith Config.opcodeMap i

/-- Byte `k` of a number, byte 0 the least significant: how spec/opcode_table.json numbers an instruction's bytes. -/
def tableByte (w k : Nat) : Byte := BitVec.ofNat 8 (w / 256 ^ k)

/-- The three bytes, the longest instruction (R62), of an instruction whose `nbits` bits are `w`; the bits above are 0. -/
def tableBytes (nbits w : Nat) : List Byte :=
  [tableByte (w % 2 ^ nbits) 0, tableByte (w % 2 ^ nbits) 1, tableByte (w % 2 ^ nbits) 2]

/-- The instruction the decoder reads from an opcode-table word: its bytes laid out first byte lowest (R44). -/
def decodeTableWord (nbits w : Nat) : Option Instr := (decode (tableBytes nbits w)).toOption

/-- The mnemonic's spelling in assembler text (R68). -/
def Mnemonic.text : Mnemonic → String
  | .hlt => "HLT"
  | .ret => "RET"
  | .push => "PUSH"
  | .pop => "POP"
  | .prn => "PRN"
  | .call => "CALL"
  | .jmp => "JMP"
  | .jeq => "JEQ"
  | .jne => "JNE"
  | .not => "NOT"
  | .ldi => "LDI"
  | .add => "ADD"
  | .mul => "MUL"
  | .mod => "MOD"
  | .cmp => "CMP"
  | .and => "AND"
  | .or => "OR"
  | .xor => "XOR"
  | .shl => "SHL"
  | .shr => "SHR"

/-- A register operand in assembler text, `R0` to `R7` (R68). -/
def regText (b : Byte) : String := "R" ++ toString b.toNat

/-- The operands of an instruction in assembler text, in encoding order: registers, then the immediate in decimal (R68). -/
def Instr.operandTexts (i : Instr) : List String :=
  i.regOperands.map regText ++ (i.operands.drop i.regOperands.length).map fun v => toString v.toNat

/-- The assembler text (R68): mnemonic, a space, the operands separated by commas. An ill-formed term has none, since the
syntax names only R0 to R7. -/
def Instr.text (i : Instr) : Option String :=
  if i.wellFormed then
    if i.operands.isEmpty then some i.mnemonic.text
    else some (i.mnemonic.text ++ " " ++ String.intercalate "," i.operandTexts)
  else none

end Sys2Proof
end

