-- ==== Sys2Proof/Machine/Fetch.lean ====
section
/-! DEFINITION. Phases 1 to 4 of a step on the machine's memory (40_execution_loop.md R70 to R73): the decoder reading the
bytes at `pc`, `pc+1`, `pc+2`, as many as the instruction has (20_memory.md R41). -/

namespace Sys2Proof.Machine

/-- The subkind of an access to the byte at offset `k` from the opcode: FETCH for the opcode, OPERAND after it (R118). -/
def fetchSubkind : Nat → OobSubkind
  | 0 => .fetch
  | _ + 1 => .operand

/-- The byte at offset `k` from the opcode, none beyond the end of memory; the address does not wrap (R28, R73). -/
def fetchByte (s : State) (k : Nat) : Option Byte := (readMem (fetchSubkind k) s (s.pc.toNat + k)).toOption

/-- The error that a failed decode raises (R70, R71, R73). -/
def fetchRaises (s : State) : DecodeError → Raised
  | .missingByte k => .outOfBounds (fetchSubkind k) (s.pc.toNat + k)
  | .unknownOpcode ir => .unknownOpcode ir

/-- The instruction at `pc` (R70 to R73). -/
def fetch (s : State) : Except Raised Instr :=
  match decodeFrom Config.opcodeMap (fetchByte s) with
  | .ok i => .ok i
  | .error e => .error (fetchRaises s e)

/-- One step of a running machine (R81): fetch, then run, or raise what the fetch raised. -/
def stepRunning (run : Instr → State → Host.Outcome State Fault Refusal) (s : State) :
    Host.Outcome State Fault Refusal :=
  match fetch s with
  | .ok i => run i s
  | .error e => .next (s.raise e)

/-- A state in which the next step fetches three bytes at `pc`: a machine that is not running begins a new run, and a `pc`
too close to the end of memory becomes 0. A running state with room at `pc` is unchanged (log 9). -/
def State.readyToFetch (s : State) : State :=
  let live := if s.status = .running then s else { s with status := .running, cause := none, fault := none }
  if live.pc.toNat + 3 ≤ Config.memSize then live else { live with pc := 0 }

end Sys2Proof.Machine
end

