-- ==== Sys2Proof/Machine/Step.lean ====
section
/-! DEFINITION. The step (40_execution_loop.md R81), and how the host places one instruction where it fetches. -/

namespace Sys2Proof.Machine

/-- One step: only while Running (00_scope.md R15); in the Halted and Faulted states there is no step (R83, log 5). -/
def step (s : State) : Host.Outcome State Fault Refusal :=
  match s.status with
  | .running => stepRunning exec s
  | .halted => .fault .noStepHalted
  | .faulted => .fault .noStepFaulted

/-- `s` with the instruction of an opcode-table word stored at `pc`, so that the next step fetches and runs exactly it
(log 9): it stands for the loader, which writes memory before the first step (R14). -/
def State.withFetchWord (s : State) (nbits w : Nat) : State :=
  { s.readyToFetch with
    mem := Memory.place s.readyToFetch.mem s.readyToFetch.pc.toNat (tableBytes nbits w) }

end Sys2Proof.Machine
end

