-- ==== Sys2Proof/Machine/Init.lean ====
section
/-! DEFINITION. The initialisation interface `Init(image)` (00_scope.md R14, 70_reset_and_hazards.md R137), with the draw
`R_INIT` of R0 to R6 as an argument (10_state.md R38): a claim about a run holds for every draw (log 1). -/

namespace Sys2Proof.Machine

/-- The eight registers at reset: the draw for R0 to R6, `SP_INIT` for R7 (R38). -/
def resetRegs (rInit : Vector Byte 7) : Vector Byte 8 := rInit.push Config.spInit

/-- `Init(image)` (R14, R137): refuses an image longer than memory; else memory is zero, then the image from address 0. -/
def init (rInit : Vector Byte 7) (image : List Byte) : Option State :=
  if image.length ≤ Config.memSize then
    some { State.reset with regs := resetRegs rInit, mem := Memory.place [] 0 image }
  else none

end Sys2Proof.Machine
end

