-- ==== Sys2Proof/Machine/Status.lean ====
section
/-! DEFINITION. What the block presents to the outside: the status outputs (00_scope.md R17) with their codes
(60_exceptions.md R121), the exit status and diagnostic derived from them (R136), and the debug port (R18). All are
views of the state; none changes it. -/

namespace Sys2Proof.Machine

/-- The four error kinds of the source (R116). -/
inductive ErrorKind where
  | unknownOpcode
  | outOfBoundsAccess
  | divideByZero
  | unsupportedAluOperation
deriving DecidableEq, Repr

/-- The code of an error kind, 0 for none (R121); the last is never raised (R120). -/
def ErrorKind.code : Option ErrorKind → Nat
  | none => 0
  | some .unknownOpcode => 1
  | some .outOfBoundsAccess => 2
  | some .divideByZero => 3
  | some .unsupportedAluOperation => 4

/-- The code of an OutOfBoundsAccess subkind (R121). -/
def OobSubkind.code : OobSubkind → Nat
  | .fetch => 0
  | .operand => 1
  | .register => 2
  | .returnAddress => 3
  | .data => 4

/-- The code of a halt cause, 0 for none (R121). -/
def HaltCause.code : Option HaltCause → Nat
  | none => 0
  | some .hlt => 1
  | some .divZero => 2

/-- The code of a run status (R121). -/
def RunStatus.code : RunStatus → Nat
  | .running => 0
  | .halted => 1
  | .faulted => 2

/-- The `kind` of a fault record (R34). -/
def FatalError.kind : FatalError → ErrorKind
  | .unknownOpcode => .unknownOpcode
  | .outOfBoundsAccess _ => .outOfBoundsAccess

/-- The `subkind` of a fault record, none for UnknownOpcode (R34, R122). -/
def FatalError.subkind : FatalError → Option OobSubkind
  | .unknownOpcode => none
  | .outOfBoundsAccess sub => some sub

/-- The error kind that a raise is of (R116). -/
def Raised.kind : Raised → ErrorKind
  | .unknownOpcode _ => .unknownOpcode
  | .outOfBounds _ _ => .outOfBoundsAccess
  | .divideByZero _ => .divideByZero

/-- The status outputs (R17, R135): the run status, the halt cause when Halted, the fault record when Faulted. -/
structure StatusOutputs where
  status : RunStatus
  cause : Option HaltCause
  fault : Option FaultRecord
deriving DecidableEq, Repr

/-- The status outputs of a state (R17). -/
def State.statusOutputs (s : State) : StatusOutputs :=
  { status := s.status
    cause := if s.status = .halted then s.cause else none
    fault := if s.status = .faulted then s.fault else none }

/-- The process exit status the entry point derives, none while Running (R136). -/
def State.exitStatus (s : State) : Option Nat :=
  match s.status with
  | .running => none
  | .halted => some 0
  | .faulted => some Config.faultExitStatus

/-- The record the diagnostic sink reports: a fault's, and nothing for a halt (R136). The text is not specified. -/
def State.diagnostic (s : State) : Option FaultRecord := s.statusOutputs.fault

/-- The debug observation port (R18, 60_exceptions.md R134): `x[0..7]`, `pc` and `FL`, read only. -/
structure DebugView where
  regs : Vector Byte 8
  pc : Pc
  fl : Byte
deriving DecidableEq, Repr

/-- What the debug port presents (R18). -/
def State.debugView (s : State) : DebugView := { regs := s.regs, pc := s.pc, fl := s.fl }

end Sys2Proof.Machine
end

