-- ==== Sys2Proof/Safety.lean ====
section
/-! DEFINITION. What claims about the machine are stated in: safe and terminal states, the invariant of a run, and what an
instruction keeps (its frame). -/

namespace Sys2Proof.Machine

/-- The run has not ended in a fatal error (10_state.md R32, 60_exceptions.md R122). -/
def State.Safe (s : State) : Prop := s.status ≠ .faulted

/-- The run has ended: Halted or Faulted (40_execution_loop.md R83, R85). -/
def State.Terminal (s : State) : Prop := s.status ≠ .running

/-- The byte at offset `k` from the opcode of the instruction at `pc` (R69: `ir`, `op1`, `op2`). -/
def State.byteAt (s : State) (k : Nat) : Byte := Memory.read s.mem (s.pc.toNat + k)

/-- The operand byte that names register `r` (30_encoding.md R64). -/
def regByte (r : RegIdx) : Byte := BitVec.ofNat 8 r.val

/-! ### The invariant of a run -/

/-- A fault record says what the table of 60_exceptions.md R118 (R117 for an unknown opcode) says of its error; DATA is
never recorded. -/
def FaultRecord.Legal (r : FaultRecord) (mem : Memory) : Prop :=
  match r.error with
  | .unknownOpcode =>
    r.fpc.toNat < Config.memSize ∧ r.detail = (Memory.read mem r.fpc.toNat).toNat ∧
      dispatch Config.opcodeMap (Memory.read mem r.fpc.toNat) = none
  | .outOfBoundsAccess .fetch => Config.memSize ≤ r.fpc.toNat ∧ r.detail = r.fpc.toNat
  | .outOfBoundsAccess .operand =>
    r.fpc.toNat < Config.memSize ∧ Config.memSize ≤ r.detail ∧
      (r.detail = r.fpc.toNat + 1 ∨ r.detail = r.fpc.toNat + 2)
  | .outOfBoundsAccess .register => r.fpc.toNat < Config.memSize ∧ 7 < r.detail ∧ r.detail < 256
  | .outOfBoundsAccess .returnAddress =>
    r.fpc.toNat < Config.memSize ∧ 255 < r.detail ∧ r.detail = r.fpc.toNat + 2
  | .outOfBoundsAccess .data => False

/-- Status, cause and fault agree (10_state.md R32 to R34): a cause exactly when Halted, a record exactly when Faulted,
and the record is legal and names the `pc` that the step left in place (60_exceptions.md R122). -/
def State.StatusAgrees (s : State) : Prop :=
  match s.status with
  | .running => s.cause = none ∧ s.fault = none
  | .halted => s.cause ≠ none ∧ s.fault = none
  | .faulted => s.cause = none ∧ ∃ r, s.fault = some r ∧ r.fpc = s.pc ∧ r.Legal s.mem

/-- What holds in every state of a run. -/
structure State.Inv (s : State) : Prop where
  /-- memory is in its canonical form, so equal memories are equal data -/
  memWf : Memory.wf s.mem = true
  /-- bits 7:3 of FL are 0 and at most one of E, G, L is 1 (R29, R30) -/
  flags : s.fl = 0 ∨ s.fl = 1 ∨ s.fl = 2 ∨ s.fl = 4
  /-- `pc` is at most MEM_SIZE (R28) -/
  pcBound : s.pc.toNat ≤ Config.memSize
  /-- status, cause and fault agree -/
  statusAgrees : s.StatusAgrees

/-! ### Frames -/

/-- Every register outside `except` is unchanged. -/
def RegsKept (s t : State) (except : List RegIdx) : Prop := ∀ r, r ∉ except → t.readReg r = s.readReg r

/-- Every byte of memory outside `except` reads as before. -/
def MemKept (s t : State) (except : List Nat) : Prop :=
  ∀ a, a ∉ except → Memory.read t.mem a = Memory.read s.mem a

/-- Status, halt cause and fault record are unchanged. -/
def StatusKept (s t : State) : Prop := t.status = s.status ∧ t.cause = s.cause ∧ t.fault = s.fault

/-- From `s` to `t` an instruction wrote no register outside `regs`, no byte of memory, no flag, no output and no status;
`pc` may change. -/
def WritesOnlyRegs (s t : State) (regs : List RegIdx) : Prop :=
  RegsKept s t regs ∧ MemKept s t [] ∧ t.fl = s.fl ∧ t.out = s.out ∧ StatusKept s t

end Sys2Proof.Machine
end

