-- ==== Sys2Proof/Certificates/Slice0/Obligations.lean ====
section
/-! DEFINITION. The statements for the provers. Where a statement rests on a decision the spec marks as its own
(92_eei_decisions.md), on a derivation it marks, or on a choice of this model, its docstring says so and its basis is
'derived'. Opcode byte values are the spec's default map (30_encoding.md R60, decision D1, log 2); memory has the default 256 cells (D2, log 3). -/

open Sys2Proof Sys2Proof.Machine

/-- The 20 registered opcode bytes, written out from the table of 30_encoding.md R60. -/
def Sys2Proof.registeredOpcodes : List Byte :=
  [0x01, 0x11, 0x45, 0x46, 0x47, 0x50, 0x54, 0x55, 0x56, 0x69,
   0x82, 0xA0, 0xA2, 0xA4, 0xA7, 0xA8, 0xAA, 0xAB, 0xAC, 0xAD]

/-! ### Encoding -/

/-- For EVERY opcode map that meets the constraints of R61, not only the default one, decoding the encoding of any
instruction, whatever bytes follow, gives the instruction back, at every value of every operand byte. -/
def Obligations.DecodeInvertsEncodeForEveryValidMap : Prop :=
  ∀ (m : OpcodeMap), OpcodeMap.Valid m → ∀ (i : Instr) (rest : List Byte),
    decodeWith m (encodeWith m i ++ rest) = .ok i

/-- The other direction: bytes that decode to an instruction begin with its encoding, so an instruction has one spelling. -/
def Obligations.DecodedBytesBeginWithTheEncoding : Prop :=
  ∀ (m : OpcodeMap), OpcodeMap.Valid m → ∀ (bytes : List Byte) (i : Instr),
    decodeWith m bytes = .ok i → ∃ rest, bytes = encodeWith m i ++ rest

/-- The bytes of R60 and R63, written out, decode to the instructions they stand for. -/
def Obligations.TableBytesDecodeToTheirInstructions : Prop :=
  ∀ a b : Byte,
    decode [0x01] = .ok .hlt ∧ decode [0x11] = .ok .ret ∧
    decode [0x45, a] = .ok (.push a) ∧ decode [0x46, a] = .ok (.pop a) ∧ decode [0x47, a] = .ok (.prn a) ∧
    decode [0x50, a] = .ok (.call a) ∧ decode [0x54, a] = .ok (.jmp a) ∧ decode [0x55, a] = .ok (.jeq a) ∧
    decode [0x56, a] = .ok (.jne a) ∧ decode [0x69, a] = .ok (.not a) ∧
    decode [0x82, a, b] = .ok (.ldi a b) ∧ decode [0xA0, a, b] = .ok (.add a b) ∧
    decode [0xA2, a, b] = .ok (.mul a b) ∧ decode [0xA4, a, b] = .ok (.mod a b) ∧
    decode [0xA7, a, b] = .ok (.cmp a b) ∧ decode [0xA8, a, b] = .ok (.and a b) ∧
    decode [0xAA, a, b] = .ok (.or a b) ∧ decode [0xAB, a, b] = .ok (.xor a b) ∧
    decode [0xAC, a, b] = .ok (.shl a b) ∧ decode [0xAD, a, b] = .ok (.shr a b)

/-- A byte is refused as an opcode exactly when it is none of the 20 of R60, whatever follows it: nothing falls through to
a neighbour (R66, a derivation the spec marks). -/
def Obligations.ExactlyUnregisteredBytesAreUnknown : Prop :=
  ∀ (ir : Byte) (rest : List Byte), decode (ir :: rest) = .error (.unknownOpcode ir) ↔ ir ∉ registeredOpcodes

/-! ### The step -/

/-- When the bytes at `pc` (three of them, or as many as memory still has) decode to `i`, the step of a running machine is
`exec i`: nothing is added around it, since `exec` holds phases 5 to 8. -/
def Obligations.StepRunsTheDecodedInstruction : Prop :=
  ∀ (s : State) (i : Instr), s.status = .running →
    decode ([s.byteAt 0, s.byteAt 1, s.byteAt 2].take (256 - s.pc.toNat)) = .ok i → step s = exec i s

/-- When memory holds the encoding of `i` at `pc`, the step of a running machine runs `i`; the bytes after it do not matter. -/
def Obligations.StepRunsTheEncodedInstruction : Prop :=
  ∀ (s : State) (i : Instr), s.status = .running → s.pc.toNat + (encode i).length ≤ 256 →
    (∀ (k : Nat) (h : k < (encode i).length), Memory.read s.mem (s.pc.toNat + k) = (encode i)[k]) →
    step s = exec i s

/-- A fetch beyond memory ends the run Faulted with FETCH and the address (R70; the spec's decision D3: `pc` does not wrap). -/
def Obligations.FetchBeyondMemoryFaults : Prop :=
  ∀ s : State, s.status = .running → 256 ≤ s.pc.toNat →
    step s = .next { s with
      status := .faulted, fault := some ⟨.outOfBoundsAccess .fetch, s.pc, s.pc.toNat⟩ }

/-- An unregistered byte at `pc` ends the run Faulted, with its address and the byte recorded and nothing else changed,
whatever comes after it (R71, R117): the check comes before any operand is read. -/
def Obligations.UnknownOpcodeEndsTheRun : Prop :=
  ∀ s : State, s.status = .running → s.pc.toNat < 256 → s.byteAt 0 ∉ registeredOpcodes →
    step s = .next { s with
      status := .faulted, fault := some ⟨.unknownOpcode, s.pc, (s.byteAt 0).toNat⟩ }

/-- An operand byte beyond memory ends the run Faulted with OPERAND and its address, before any write (R73; decision D9).
The first missing byte is the one at address 256. -/
def Obligations.MissingOperandFaults : Prop :=
  ∀ s : State, s.status = .running → s.pc.toNat < 256 → s.byteAt 0 ∈ registeredOpcodes →
    256 < s.pc.toNat + 1 + (s.byteAt 0).toNat / 64 →
    step s = .next { s with
      status := .faulted, fault := some ⟨.outOfBoundsAccess .operand, s.pc, 256⟩ }

/-- An instruction with a register operand byte above 7 ends the run Faulted with REGISTER and the FIRST such byte, and
writes nothing else (R74; decision D8): the form that every result statement below leaves to this one. -/
def Obligations.FirstIllegalRegisterByteFaults : Prop :=
  ∀ (s : State) (i : Instr) (b : Byte), i.regOperands.find? (fun r => 7 < r.toNat) = some b →
    exec i s = .next { s with
      status := .faulted, fault := some ⟨.outOfBoundsAccess .register, s.pc, b.toNat⟩ }

/-- The whole step of R81 for a running machine, phase by phase, with the error order of R124 (decision D15): FETCH, then
UnknownOpcode, then OPERAND at `pc+1` and `pc+2`, then REGISTER for `op1` and `op2`, then the handler. -/
def Obligations.StepFollowsThePhaseOrder : Prop :=
  ∀ s : State, s.status = .running →
    step s =
      if 256 ≤ s.pc.toNat then .next (s.faultWith (.outOfBoundsAccess .fetch) s.pc.toNat)
      else
        match dispatch Config.opcodeMap (s.byteAt 0) with
        | none => .next (s.faultWith .unknownOpcode (s.byteAt 0).toNat)
        | some k =>
          if 1 ≤ (s.byteAt 0).toNat / 64 ∧ 256 ≤ s.pc.toNat + 1 then
            .next (s.faultWith (.outOfBoundsAccess .operand) (s.pc.toNat + 1))
          else if 2 ≤ (s.byteAt 0).toNat / 64 ∧ 256 ≤ s.pc.toNat + 2 then
            .next (s.faultWith (.outOfBoundsAccess .operand) (s.pc.toNat + 2))
          else if k.format ≠ .f0 ∧ 7 < (s.byteAt 1).toNat then
            .next (s.faultWith (.outOfBoundsAccess .register) (s.byteAt 1).toNat)
          else if k.format = .f2rr ∧ 7 < (s.byteAt 2).toNat then
            .next (s.faultWith (.outOfBoundsAccess .register) (s.byteAt 2).toNat)
          else exec (k.instr (s.byteAt 1) (s.byteAt 2)) s

/-- A machine has a next state exactly while it is Running (R15, R83; decision D13): no instruction, no operand and no
memory content stops the model, and no step leaves Halted or Faulted. -/
def Obligations.MachineStepsExactlyWhileRunning : Prop :=
  ∀ s : State, (∃ t, step s = .next t) ↔ s.status = .running

/-- A step that ends Faulted wrote the status and the fault record and nothing else, and the record names the instruction's
address (R78, R122; decision D10). -/
def Obligations.FatalErrorWritesOnlyStatusAndRecord : Prop :=
  ∀ s t : State, step s = .next t → t.status = .faulted →
    ∃ e d, t = { s with status := .faulted, fault := some ⟨e, s.pc, d⟩ }

/-- A step that ends Halted ran HLT, or ran MOD with a divisor register that holds 0 and then wrote nothing but status and
cause: there is no other way to halt (R85, R112; R90 and R119 with decision D11, R77 with D12). -/
def Obligations.OnlyHltAndModByZeroHalt : Prop :=
  ∀ s t : State, step s = .next t → t.status = .halted →
    (s.byteAt 0 = 0x01 ∧ t = { s with pc := s.pc + 1, status := .halted, cause := some .hlt }) ∨
    (s.byteAt 0 = 0xA4 ∧ (∃ rb : RegIdx, s.byteAt 2 = regByte rb ∧ s.readReg rb = 0) ∧
      t = { s with status := .halted, cause := some .divZero })

/-- After a step that ran its instruction (it ended neither Faulted nor in a division by zero), bits 7:6 and 4 of the opcode
byte say where `pc` is: with sets_pc clear it is exactly A + 1 + operand_count, not reduced modulo anything; with sets_pc
set it is the 8-bit target or A + 2 (R76, R28 with decision D3, R106). -/
def Obligations.OpcodeBitsDecideThePcUpdate : Prop :=
  ∀ s t : State, step s = .next t → t.status ≠ .faulted → t.cause ≠ some .divZero →
    ((s.byteAt 0).getLsbD 4 = false → t.pc.toNat = s.pc.toNat + 1 + (s.byteAt 0).toNat / 64) ∧
    ((s.byteAt 0).getLsbD 4 = true → t.pc.toNat ≤ 255 ∨ t.pc.toNat = s.pc.toNat + 2)

/-- The invariant of a run: canonical memory, a legal flags byte, `pc` at most 256, status, cause and fault record in
agreement, the record legal and true of memory. Every step from a state that meets it gives a state that meets it. -/
def Obligations.StepKeepsTheRunInvariant : Prop :=
  ∀ s t : State, s.Inv → step s = .next t → t.Inv

/-- The state after reset meets the invariant of a run. -/
def Obligations.ResetMeetsTheRunInvariant : Prop := State.reset.Inv

/-- Every initial state, for every draw of R0 to R6 and every image that fits, meets the invariant of a run. -/
def Obligations.EveryInitialStateMeetsTheRunInvariant : Prop :=
  ∀ (rInit : Vector Byte 7) (image : List Byte) (s : State), init rInit image = some s → s.Inv

/-- `Init(image)` (R14, R38, R43, R137): for every draw of R0 to R6 (decision D4: the value is free, so nothing here rests
on the 0 of State.reset, log 1), an image that fits gives the reset values of R38 and the image in memory from address 0
with zeros above; a longer one gives nothing (decision D28). SP is the default SP_INIT (D5). -/
def Obligations.InitGivesTheResetValuesAndTheImage : Prop :=
  ∀ (rInit : Vector Byte 7) (image : List Byte),
    (image.length ≤ 256 → ∃ s, init rInit image = some s ∧
      (∀ r : Fin 7, s.readReg ⟨r.val, by omega⟩ = rInit[r]) ∧ s.sp = 0xF3 ∧ s.pc = 0 ∧ s.fl = 0 ∧
      s.status = .running ∧ s.cause = none ∧ s.fault = none ∧ s.out = [] ∧
      ∀ a, Memory.read s.mem a = (image[a]?).getD 0) ∧
    (256 < image.length → init rInit image = none)

/-- The canonical form is unique: canonical memories that read alike at every address are the same data, so equality of
States is equality of machines. -/
def Obligations.CanonicalMemoriesThatReadAlikeAreEqual : Prop :=
  ∀ m n : Memory, Memory.wf m = true → Memory.wf n = true →
    (∀ a, Memory.read m a = Memory.read n a) → m = n

/-! ### Whole-machine rules -/

/-- The output trace only grows, by one byte at a time, and only PRN grows it (R35; R16 and R101 with decision D23). -/
def Obligations.OutputGrowsOnlyByPrn : Prop :=
  ∀ (i : Instr) (s t : State), exec i s = .next t →
    t.out = s.out ∨ ∃ r : RegIdx, i = .prn (regByte r) ∧ t.out = s.out ++ [s.readReg r]

/-- No instruction but CMP changes FL, whatever it does, errors and halts included (R30, R98; decision D6). -/
def Obligations.OnlyCmpWritesFlags : Prop :=
  ∀ (i : Instr) (s t : State), exec i s = .next t → t.fl ≠ s.fl → ∃ a b, i = .cmp a b

/-- FL is read only through E: two states that differ in FL but agree on bit 0 stay equal apart from FL, whichever
instruction they run (R30; decision D6). -/
def Obligations.FlagsAreReadOnlyThroughEqual : Prop :=
  ∀ (i : Instr) (s t : State) (v : Byte), exec i s = .next t → v.getLsbD 0 = s.fl.getLsbD 0 →
    ∃ w, exec i { s with fl := v } = .next { t with fl := w }

/-- Only PUSH and CALL change memory, and only the cell at the decremented SP, computed as their meanings compute it (R41,
a derivation the spec marks). -/
def Obligations.OnlyPushAndCallStore : Prop :=
  ∀ (i : Instr) (s t : State) (a : Nat), exec i s = .next t → Memory.read t.mem a ≠ Memory.read s.mem a →
    a = s.decSp.sp.toNat ∧ ∃ r, i = .push r ∨ i = .call r

/-- Only PUSH, POP, CALL, RET and the instructions that write a destination register, with R7 as that register, change SP
(R22 with decision D29, R41, R102). -/
def Obligations.OnlyStackInstructionsAndDestinationR7ChangeSp : Prop :=
  ∀ (i : Instr) (s t : State), exec i s = .next t → t.sp ≠ s.sp →
    i = .ret ∨ (∃ r, i = .push r ∨ i = .pop r ∨ i = .call r) ∨ i = .not 7 ∨
      ∃ b, i ∈ [Instr.ldi 7 b, .add 7 b, .mul 7 b, .mod 7 b, .and 7 b, .or 7 b, .xor 7 b, .shl 7 b, .shr 7 b]

/-- A byte that PUSH stored is the byte the next fetch of that cell reads: self-modifying code takes effect at once (R54;
decision D33). -/
def Obligations.PushedByteIsTheNextByteFetchedThere : Prop :=
  ∀ (s : State) (r : RegIdx), r ≠ spIdx → ∃ t, exec (.push (regByte r)) s = .next t ∧
    ∀ u : State, u.mem = t.mem → u.pc.toNat = t.sp.toNat → fetchByte u 0 = some (s.readReg r)

/-! ### The ALU -/

/-- ADD (R88), its frame and its completion in every state for every pair of registers, R7 and equal ones included. -/
def Obligations.AddWritesTheSumModulo256 : Prop :=
  (∀ a b : Byte, encode (.add a b) = [0xA0, a, b]) ∧
  ∀ (s : State) (ra rb : RegIdx), ∃ t, exec (.add (regByte ra) (regByte rb)) s = .next t ∧
    (t.readReg ra).toNat = ((s.readReg ra).toNat + (s.readReg rb).toNat) % 256 ∧
    t.pc = s.pc + 3 ∧ WritesOnlyRegs s t [ra]

/-- MUL (R89), its frame and its completion. -/
def Obligations.MulWritesTheProductModulo256 : Prop :=
  (∀ a b : Byte, encode (.mul a b) = [0xA2, a, b]) ∧
  ∀ (s : State) (ra rb : RegIdx), ∃ t, exec (.mul (regByte ra) (regByte rb)) s = .next t ∧
    (t.readReg ra).toNat = ((s.readReg ra).toNat * (s.readReg rb).toNat) % 256 ∧
    t.pc = s.pc + 3 ∧ WritesOnlyRegs s t [ra]

/-- MOD (R90): a divisor that is not 0 gives the unsigned remainder; a divisor of 0 halts with DIV_ZERO, the destination
not written and `pc` kept at the MOD (the spec's decision D11). -/
def Obligations.ModWritesTheRemainderOrHalts : Prop :=
  ∀ (s : State) (ra rb : RegIdx),
    (s.readReg rb ≠ 0 → ∃ t, exec (.mod (regByte ra) (regByte rb)) s = .next t ∧
      (t.readReg ra).toNat = (s.readReg ra).toNat % (s.readReg rb).toNat ∧
      t.pc = s.pc + 3 ∧ WritesOnlyRegs s t [ra]) ∧
    (s.readReg rb = 0 → exec (.mod (regByte ra) (regByte rb)) s =
      .next { s with status := .halted, cause := some .divZero })

/-- AND (R91), bit by bit, its frame and its completion. -/
def Obligations.AndWritesTheBitwiseAnd : Prop :=
  (∀ a b : Byte, encode (.and a b) = [0xA8, a, b]) ∧
  ∀ (s : State) (ra rb : RegIdx), ∃ t, exec (.and (regByte ra) (regByte rb)) s = .next t ∧
    (∀ k < 8, (t.readReg ra).getLsbD k = ((s.readReg ra).getLsbD k && (s.readReg rb).getLsbD k)) ∧
    t.pc = s.pc + 3 ∧ WritesOnlyRegs s t [ra]

/-- OR (R92), bit by bit, its frame and its completion. -/
def Obligations.OrWritesTheBitwiseOr : Prop :=
  (∀ a b : Byte, encode (.or a b) = [0xAA, a, b]) ∧
  ∀ (s : State) (ra rb : RegIdx), ∃ t, exec (.or (regByte ra) (regByte rb)) s = .next t ∧
    (∀ k < 8, (t.readReg ra).getLsbD k = ((s.readReg ra).getLsbD k || (s.readReg rb).getLsbD k)) ∧
    t.pc = s.pc + 3 ∧ WritesOnlyRegs s t [ra]

/-- XOR (R93), bit by bit, its frame and its completion. -/
def Obligations.XorWritesTheBitwiseDifference : Prop :=
  (∀ a b : Byte, encode (.xor a b) = [0xAB, a, b]) ∧
  ∀ (s : State) (ra rb : RegIdx), ∃ t, exec (.xor (regByte ra) (regByte rb)) s = .next t ∧
    (∀ k < 8, ((t.readReg ra).getLsbD k = true ↔ (s.readReg ra).getLsbD k ≠ (s.readReg rb).getLsbD k)) ∧
    t.pc = s.pc + 3 ∧ WritesOnlyRegs s t [ra]

/-- NOT (R94), its frame and its completion. -/
def Obligations.NotWritesTheComplement : Prop :=
  (∀ r : Byte, encode (.not r) = [0x69, r]) ∧
  ∀ (s : State) (r : RegIdx), ∃ t, exec (.not (regByte r)) s = .next t ∧
    (t.readReg r).toNat = 255 - (s.readReg r).toNat ∧ t.pc = s.pc + 2 ∧ WritesOnlyRegs s t [r]

/-- SHL (R95), its frame and its completion; the amount is the whole byte, so 8 or more gives 0 (a derivation the spec
marks: "amounts of 8 or more from the quoted sentence and 10_state.md rule R24"). -/
def Obligations.ShlShiftsLeftByTheWholeByte : Prop :=
  ∀ (s : State) (ra rb : RegIdx), ∃ t, exec (.shl (regByte ra) (regByte rb)) s = .next t ∧
    (t.readReg ra).toNat = ((s.readReg ra).toNat * 2 ^ (s.readReg rb).toNat) % 256 ∧
    (8 ≤ (s.readReg rb).toNat → t.readReg ra = 0) ∧
    t.pc = s.pc + 3 ∧ WritesOnlyRegs s t [ra]

/-- SHR (R96), its frame and its completion; the amount is the whole byte, so 8 or more gives 0 (a derivation the spec
marks: "amounts of 8 or more from the quoted sentence of rule R95"). -/
def Obligations.ShrShiftsRightByTheWholeByte : Prop :=
  ∀ (s : State) (ra rb : RegIdx), ∃ t, exec (.shr (regByte ra) (regByte rb)) s = .next t ∧
    (t.readReg ra).toNat = (s.readReg ra).toNat / 2 ^ (s.readReg rb).toNat ∧
    (8 ≤ (s.readReg rb).toNat → t.readReg ra = 0) ∧
    t.pc = s.pc + 3 ∧ WritesOnlyRegs s t [ra]

/-- CMP (R97): the register VALUES are compared, unsigned, and FL is written whole; no register is written. Unsigned
order and the sides of G and L are the spec's decision D7, bits 7:3 being 0 its decision D6. -/
def Obligations.CmpWritesExactlyOneFlag : Prop :=
  ∀ (s : State) (ra rb : RegIdx), ∃ t, exec (.cmp (regByte ra) (regByte rb)) s = .next t ∧
    ((s.readReg ra).toNat = (s.readReg rb).toNat → t.fl = 0x01) ∧
    ((s.readReg rb).toNat < (s.readReg ra).toNat → t.fl = 0x02) ∧
    ((s.readReg ra).toNat < (s.readReg rb).toNat → t.fl = 0x04) ∧
    t.pc = s.pc + 3 ∧ RegsKept s t [] ∧ MemKept s t [] ∧ t.out = s.out ∧ StatusKept s t

/-! ### Load immediate and output -/

/-- LDI (R100), for every immediate byte and every register, R7 included; its frame and its completion. -/
def Obligations.LdiWritesTheImmediate : Prop :=
  (∀ r i : Byte, encode (.ldi r i) = [0x82, r, i]) ∧
  ∀ (s : State) (r : RegIdx) (i : Byte), ∃ t, exec (.ldi (regByte r) i) s = .next t ∧
    t.readReg r = i ∧ t.pc = s.pc + 3 ∧ WritesOnlyRegs s t [r]

/-- PRN (R101; decision D23: the block hands out the byte): appends the register's byte to the output; its frame and its
completion. -/
def Obligations.PrnAppendsTheRegisterToTheOutput : Prop :=
  ∀ (s : State) (r : RegIdx), ∃ t, exec (.prn (regByte r)) s = .next t ∧
    t.out = s.out ++ [s.readReg r] ∧ t.pc = s.pc + 2 ∧
    RegsKept s t [] ∧ MemKept s t [] ∧ t.fl = s.fl ∧ StatusKept s t

/-! ### The stack -/

/-- PUSH (R103, R102; decisions D16 and D18): SP goes down by one modulo 256 and the cell it then names gets the register,
which for R7 is the decremented SP; every other cell and register is kept; its completion. -/
def Obligations.PushStoresAtTheDecrementedSp : Prop :=
  ∀ (s : State) (r : RegIdx), ∃ t, exec (.push (regByte r)) s = .next t ∧
    t.sp = s.sp - 1 ∧
    Memory.read t.mem s.decSp.sp.toNat = (if r = spIdx then s.sp - 1 else s.readReg r) ∧
    t.pc = s.pc + 2 ∧ RegsKept s t [spIdx] ∧ MemKept s t [s.decSp.sp.toNat] ∧
    t.fl = s.fl ∧ t.out = s.out ∧ StatusKept s t

/-- POP (R104, R102; decisions D16 and D18): the register gets the byte at SP and SP goes up by one modulo 256; POP R7
leaves the popped byte plus one; the cell is not cleared; its frame and its completion. -/
def Obligations.PopLoadsFromSpAndIncrementsIt : Prop :=
  ∀ (s : State) (r : RegIdx), ∃ t, exec (.pop (regByte r)) s = .next t ∧
    (r ≠ spIdx → t.readReg r = Memory.read s.mem s.sp.toNat ∧ t.sp = s.sp + 1) ∧
    (r = spIdx → t.sp = Memory.read s.mem s.sp.toNat + 1) ∧
    t.pc = s.pc + 2 ∧ WritesOnlyRegs s t [r, spIdx]

/-- The stack round trip (R105, a derivation the spec marks): after a PUSH from a register that is not R7, a POP into a
register that is not R7, in any state with the same SP and the same byte there, gives the value and the old SP back. -/
def Obligations.PopAfterPushRestoresValueAndSp : Prop :=
  ∀ (s t u : State) (rs rd : RegIdx), rs ≠ spIdx → rd ≠ spIdx → exec (.push (regByte rs)) s = .next t →
    u.sp = t.sp → Memory.read u.mem u.sp.toNat = Memory.read t.mem t.sp.toNat →
    ∃ v, exec (.pop (regByte rd)) u = .next v ∧ v.readReg rd = s.readReg rs ∧ v.sp = s.sp

/-! ### Control transfer and halt -/

/-- CALL (R107; decisions D16, D17): a return address that fits a cell is pushed and control goes to the register's value,
which for R7 is the decremented SP; one above 255 ends the run Faulted with RETURN_ADDRESS before any write. -/
def Obligations.CallPushesTheReturnAddressAndJumps : Prop :=
  ∀ (s : State) (r : RegIdx),
    (s.pc.toNat + 2 ≤ 255 → ∃ t, exec (.call (regByte r)) s = .next t ∧
      t.sp = s.sp - 1 ∧ (Memory.read t.mem s.decSp.sp.toNat).toNat = s.pc.toNat + 2 ∧
      t.pc.toNat = (if r = spIdx then s.sp - 1 else s.readReg r).toNat ∧
      RegsKept s t [spIdx] ∧ MemKept s t [s.decSp.sp.toNat] ∧
      t.fl = s.fl ∧ t.out = s.out ∧ StatusKept s t) ∧
    (255 < s.pc.toNat + 2 → exec (.call (regByte r)) s = .next { s with
      status := .faulted, fault := some ⟨.outOfBoundsAccess .returnAddress, s.pc, s.pc.toNat + 2⟩ })

/-- RET (R108, whose pop the spec marks as derived from R104; decision D18 for the wrap): `pc` gets the byte at SP and SP
goes up by one modulo 256; its frame and its completion. -/
def Obligations.RetPopsThePc : Prop :=
  ∀ s : State, ∃ t, exec .ret s = .next t ∧
    t.pc.toNat = (Memory.read s.mem s.sp.toNat).toNat ∧ t.sp = s.sp + 1 ∧ WritesOnlyRegs s t [spIdx]

/-- JMP (R109): `pc` gets the register's value and nothing else changes; its completion. -/
def Obligations.JmpGoesToTheRegisterValue : Prop :=
  (∀ r : Byte, encode (.jmp r) = [0x54, r]) ∧
  ∀ (s : State) (r : RegIdx), ∃ t, exec (.jmp (regByte r)) s = .next t ∧
    t.pc.toNat = (s.readReg r).toNat ∧ WritesOnlyRegs s t []

/-- JEQ (R110): jumps when E is 1, goes to A + 2 when E is 0, and changes nothing else; its completion. -/
def Obligations.JeqJumpsExactlyWhenEqualIsSet : Prop :=
  (∀ r : Byte, encode (.jeq r) = [0x55, r]) ∧
  ∀ (s : State) (r : RegIdx), ∃ t, exec (.jeq (regByte r)) s = .next t ∧
    (s.fl.getLsbD 0 = true → t.pc.toNat = (s.readReg r).toNat) ∧
    (s.fl.getLsbD 0 = false → t.pc = s.pc + 2) ∧ WritesOnlyRegs s t []

/-- JNE (R111): jumps when E is 0, goes to A + 2 when E is 1, and changes nothing else; its completion. -/
def Obligations.JneJumpsExactlyWhenEqualIsClear : Prop :=
  (∀ r : Byte, encode (.jne r) = [0x56, r]) ∧
  ∀ (s : State) (r : RegIdx), ∃ t, exec (.jne (regByte r)) s = .next t ∧
    (s.fl.getLsbD 0 = false → t.pc.toNat = (s.readReg r).toNat) ∧
    (s.fl.getLsbD 0 = true → t.pc = s.pc + 2) ∧ WritesOnlyRegs s t []

/-- HLT (R112, R77; decision D12: `pc` is A + 1 after it): the machine is Halted with cause HLT and nothing else changes. -/
def Obligations.HltHaltsAfterAdvancingThePc : Prop :=
  (encode .hlt = [0x01]) ∧
  ∀ s : State, exec .hlt s = .next { s with pc := s.pc + 1, status := .halted, cause := some .hlt }

/-- The call and return law (R113, a derivation the spec marks): a RET in any state with SP and the byte there as just after
the CALL resumes at the CALL's A + 2 with the SP from before it. -/
def Obligations.RetAfterCallResumesAfterTheCall : Prop :=
  ∀ (s t u : State) (r : RegIdx), s.pc.toNat + 2 ≤ 255 → exec (.call (regByte r)) s = .next t →
    u.sp = t.sp → Memory.read u.mem u.sp.toNat = Memory.read t.mem t.sp.toNat →
    ∃ v, exec .ret u = .next v ∧ v.pc.toNat = s.pc.toNat + 2 ∧ v.sp = s.sp

/-- The comparison and branch law (R115, a derivation the spec marks): in any later state with the FL that CMP left, equal
values make JEQ jump and JNE fall through, unequal values the reverse. -/
def Obligations.BranchesFollowTheLastComparison : Prop :=
  ∀ (s t u : State) (ra rb r : RegIdx), exec (.cmp (regByte ra) (regByte rb)) s = .next t → u.fl = t.fl →
    ∃ v w, exec (.jeq (regByte r)) u = .next v ∧ exec (.jne (regByte r)) u = .next w ∧
      (s.readReg ra = s.readReg rb → v.pc.toNat = (u.readReg r).toNat ∧ w.pc = u.pc + 2) ∧
      (s.readReg ra ≠ s.readReg rb → v.pc = u.pc + 2 ∧ w.pc.toNat = (u.readReg r).toNat)

/-! ### What the outside sees -/

/-- The exit status (R136; decision D24): none while Running, 0 when Halted whatever the cause, and for a fatal error a
value that is not 0 and is otherwise open (log 6); the record is reported exactly for a fatal error. -/
def Obligations.ExitStatusIsZeroExactlyForAHalt : Prop :=
  ∀ s : State, s.Inv →
    (s.exitStatus = none ↔ s.status = .running) ∧ (s.exitStatus = some 0 ↔ s.status = .halted) ∧
    ((∃ r, s.diagnostic = some r) ↔ s.status = .faulted) ∧
    (∀ r, s.diagnostic = some r → ∃ n, s.exitStatus = some n ∧ n ≠ 0)
end

