-- ==== Sys2Proof/Laws/Decode.lean ====
section
/-! SUPPORT. The laws of the dispatcher, the operand fetch and the default opcode map. -/

namespace Sys2Proof

theorem Mnemonic.mem_all (k : Mnemonic) : k ∈ Mnemonic.all := by cases k <;> decide

/-- The default map of R60 meets the constraints of R61. -/
theorem opcodeMap_valid : OpcodeMap.Valid Config.opcodeMap := by
  refine ⟨fun j k h => ?_, fun k => ?_, fun k => ?_⟩
  · cases j <;> cases k <;> first | rfl | exact absurd h (by decide)
  · cases k <;> decide
  · cases k <;> decide

/-- What the dispatcher finds is registered for the byte. -/
theorem dispatch_some {m : OpcodeMap} {ir : Byte} {k : Mnemonic} (h : dispatch m ir = some k) : m k = ir := by
  simpa using List.find?_some h

/-- Under an injective map the dispatcher finds every mnemonic by its byte. -/
theorem dispatch_map {m : OpcodeMap} (hm : ∀ j k : Mnemonic, m j = m k → j = k) (k : Mnemonic) :
    dispatch m (m k) = some k := by
  cases h : dispatch m (m k) with
  | none =>
    have := List.find?_eq_none.mp h k k.mem_all
    simp at this
  | some j => rw [hm j k (dispatch_some h)]

/-- A byte is unknown exactly when no mnemonic has it (R66). -/
theorem dispatch_none {m : OpcodeMap} {ir : Byte} : dispatch m ir = none ↔ ∀ k, m k ≠ ir := by
  simp [dispatch, List.find?_eq_none, Mnemonic.mem_all]

theorem operandAt_of_gt {byteAt : Nat → Option Byte} {n k : Nat} (h : n < k) : operandAt byteAt n k = .ok 0 :=
  if_neg (by omega)

theorem operandAt_some {byteAt : Nat → Option Byte} {n k : Nat} {b : Byte} (h : k ≤ n) (hb : byteAt k = some b) :
    operandAt byteAt n k = .ok b := by simp [operandAt, h, hb]

theorem operandAt_none {byteAt : Nat → Option Byte} {n k : Nat} (h : k ≤ n) (hb : byteAt k = none) :
    operandAt byteAt n k = .error (.missingByte k) := by simp [operandAt, h, hb]

/-- If the operand fetch gives a byte, it is the one at its offset, or 0 for an operand the format lacks. -/
theorem operandAt_ok {byteAt : Nat → Option Byte} {n k : Nat} {b : Byte} (h : operandAt byteAt n k = .ok b) :
    (k ≤ n ∧ byteAt k = some b) ∨ (n < k ∧ b = 0) := by
  unfold operandAt at h
  split at h
  · rename_i hk
    cases hb : byteAt k with
    | none => simp [hb] at h
    | some c =>
      simp only [hb, Except.ok.injEq] at h
      exact .inl ⟨hk, by rw [h]⟩
  · simp only [Except.ok.injEq] at h
    exact .inr ⟨by omega, h.symm⟩

theorem Mnemonic.instr_mnemonic (k : Mnemonic) (op1 op2 : Byte) : (k.instr op1 op2).mnemonic = k := by
  cases k <;> rfl

/-- Everything that a decode which gives an instruction has found. -/
theorem decodeFrom_ok {m : OpcodeMap} {byteAt : Nat → Option Byte} {i : Instr} (h : decodeFrom m byteAt = .ok i) :
    ∃ ir k op1 op2, byteAt 0 = some ir ∧ dispatch m ir = some k ∧
      operandAt byteAt (decodeOpcode ir).operandCount 1 = .ok op1 ∧
      operandAt byteAt (decodeOpcode ir).operandCount 2 = .ok op2 ∧ i = k.instr op1 op2 := by
  unfold decodeFrom at h
  cases h0 : byteAt 0 with
  | none => simp [h0] at h
  | some ir =>
    simp only [h0] at h
    cases hd : dispatch m ir with
    | none => simp [hd] at h
    | some k =>
      simp only [hd] at h
      cases h1 : operandAt byteAt (decodeOpcode ir).operandCount 1 with
      | error e => simp [h1] at h
      | ok op1 =>
        simp only [h1] at h
        cases h2 : operandAt byteAt (decodeOpcode ir).operandCount 2 with
        | error e => simp [h2] at h
        | ok op2 =>
          simp only [h2, Except.ok.injEq] at h
          exact ⟨ir, k, op1, op2, rfl, hd, h1, h2, h.symm⟩

end Sys2Proof
end

