-- ==== Sys2Proof/Laws/Memory.lean ====
section
/-! SUPPORT. The laws of memory: read after write, the canonical form is kept, and what a placed image reads as. The read
laws hold of every list, canonical or not. -/

namespace Sys2Proof.Machine

/-! ### Reading -/

@[simp] theorem Memory.read_nil (x : Nat) : Memory.read [] x = Config.unwritten := rfl

theorem Memory.read_of_unlisted {m : Memory} {x : Nat} (h : ∀ c ∈ m, c.1 ≠ x) :
    Memory.read m x = Config.unwritten := by
  induction m with
  | nil => rfl
  | cons c m ih =>
    have hc : x ≠ c.1 := fun e => h c (by simp) e.symm
    simp only [Memory.read, hc, if_false]
    exact ih fun d hd => h d (by simp [hd])

theorem Memory.read_filter (m : Memory) (x a : Nat) :
    Memory.read (m.filter fun c => c.1 != x) a = if a = x then Config.unwritten else Memory.read m a := by
  induction m with
  | nil => simp
  | cons c m ih =>
    by_cases hc : c.1 = x
    · by_cases ha : a = x
      · subst ha
        simpa [hc] using ih
      · simp [hc, ih, ha, Memory.read]
    · by_cases ha : a = x
      · subst ha
        have : ¬ a = c.1 := fun e => hc e.symm
        simp [hc, ih, Memory.read, this]
      · simp [hc, ih, ha, Memory.read]

theorem Memory.read_insertCell {m : Memory} {x : Nat} (v : Byte) (a : Nat) (h : ∀ c ∈ m, c.1 ≠ x) :
    Memory.read (Memory.insertCell m x v) a = if a = x then v else Memory.read m a := by
  induction m with
  | nil => simp [Memory.insertCell, Memory.read]
  | cons c m ih =>
    have hc : c.1 ≠ x := h c (by simp)
    have ih := ih fun d hd => h d (by simp [hd])
    simp only [Memory.insertCell]
    split
    · simp [Memory.read]
    · by_cases ha : a = c.1
      · simp [Memory.read, ha, hc]
      · simp [Memory.read, ha, ih]

/-- Read after write: the written cell gives the byte, every other cell what it gave (R40, R50). -/
@[simp] theorem Memory.read_write (m : Memory) (x : Nat) (v : Byte) (a : Nat) :
    Memory.read (Memory.write m x v) a = if a = x then v else Memory.read m a := by
  unfold Memory.write
  split
  · rename_i hv
    simp [Memory.read_filter, hv]
  · rw [Memory.read_insertCell v a (by simp), Memory.read_filter]
    by_cases ha : a = x <;> simp [ha]

/-! ### The canonical form -/

theorem Memory.wf_cons {c : Host.Cell} {m : Memory} :
    Memory.wf (c :: m) = true ↔
      c.1 < Config.memSize ∧ c.2 ≠ Config.unwritten ∧ (∀ d ∈ m, c.1 < d.1) ∧ Memory.wf m = true := by
  simp [Memory.wf, and_assoc]

theorem Memory.wf_filter {m : Memory} (p : Host.Cell → Bool) (h : Memory.wf m = true) :
    Memory.wf (m.filter p) = true := by
  induction m with
  | nil => rfl
  | cons c m ih =>
    obtain ⟨h1, h2, h3, h4⟩ := Memory.wf_cons.mp h
    by_cases hp : p c
    · simp only [List.filter_cons, hp, if_true]
      exact Memory.wf_cons.mpr ⟨h1, h2, fun d hd => h3 d (List.mem_of_mem_filter hd), ih h4⟩
    · simpa [List.filter_cons, hp] using ih h4

theorem Memory.mem_insertCell {m : Memory} {x : Nat} {v : Byte} {d : Host.Cell} :
    d ∈ Memory.insertCell m x v ↔ d = (x, v) ∨ d ∈ m := by
  induction m with
  | nil => simp [Memory.insertCell]
  | cons c m ih =>
    simp only [Memory.insertCell]
    split
    · simp
    · simp only [List.mem_cons, ih]
      tauto

theorem Memory.wf_insertCell {m : Memory} {x : Nat} {v : Byte} (h : Memory.wf m = true)
    (hx : x < Config.memSize) (hv : v ≠ Config.unwritten) (hn : ∀ c ∈ m, c.1 ≠ x) :
    Memory.wf (Memory.insertCell m x v) = true := by
  induction m with
  | nil => exact Memory.wf_cons.mpr ⟨hx, hv, by simp, rfl⟩
  | cons c m ih =>
    obtain ⟨h1, h2, h3, h4⟩ := Memory.wf_cons.mp h
    have hc : c.1 ≠ x := hn c (by simp)
    simp only [Memory.insertCell]
    split
    · rename_i hlt
      refine Memory.wf_cons.mpr ⟨hx, hv, fun d hd => ?_, h⟩
      rcases List.mem_cons.mp hd with rfl | hd
      · exact hlt
      · exact hlt.trans (h3 d hd)
    · refine Memory.wf_cons.mpr ⟨h1, h2, fun d hd => ?_, ih h4 fun d hd => hn d (by simp [hd])⟩
      rcases Memory.mem_insertCell.mp hd with rfl | hd
      · change c.1 < x
        omega
      · exact h3 d hd

/-- A write inside memory keeps the canonical form. -/
theorem Memory.wf_write {m : Memory} {x : Nat} (v : Byte) (h : Memory.wf m = true) (hx : x < Config.memSize) :
    Memory.wf (Memory.write m x v) = true := by
  unfold Memory.write
  split
  · exact Memory.wf_filter _ h
  · rename_i hv
    exact Memory.wf_insertCell (Memory.wf_filter _ h) hx hv (by simp)

/-! ### Placing an image -/

/-- Placing bytes inside memory keeps the canonical form. -/
theorem Memory.wf_place {m : Memory} {a : Nat} {bytes : List Byte} (h : Memory.wf m = true)
    (ha : a + bytes.length ≤ Config.memSize) : Memory.wf (Memory.place m a bytes) = true := by
  induction bytes generalizing m a with
  | nil => exact h
  | cons b bs ih =>
    simp only [List.length_cons] at ha
    exact ih (Memory.wf_write b h (by omega)) (by omega)

/-- A placed image reads as its bytes from `a` on; every other cell is unchanged (R14). -/
theorem Memory.read_place (m : Memory) (a : Nat) (bytes : List Byte) (x : Nat) :
    Memory.read (Memory.place m a bytes) x =
      if h : a ≤ x ∧ x - a < bytes.length then bytes[x - a]'h.2 else Memory.read m x := by
  induction bytes generalizing m a with
  | nil => simp [Memory.place]
  | cons b bs ih =>
    simp only [Memory.place, ih, Memory.read_write]
    by_cases hx : x = a
    · subst hx
      simp
    · by_cases hle : a + 1 ≤ x
      · obtain ⟨k, rfl⟩ : ∃ k, x = a + 1 + k := ⟨x - (a + 1), by omega⟩
        have e : a + 1 + k - a = k + 1 := by omega
        have e' : a + 1 + k - (a + 1) = k := by omega
        simp [e, e', hx, show a ≤ a + 1 + k by omega]
      · have : ¬ a ≤ x := by omega
        simp [hx, hle, this]

end Sys2Proof.Machine
end

