-- ==== Sys2Proof/Laws/State.lean ====
section
/-! SUPPORT. One lemma per field per update of State, so that no proof unfolds a record update. -/

namespace Sys2Proof.Machine

variable (s : State)

/-! ### writeReg -/

@[simp] theorem State.writeReg_pc (r : RegIdx) (v : Byte) : (s.writeReg r v).pc = s.pc := rfl
@[simp] theorem State.writeReg_fl (r : RegIdx) (v : Byte) : (s.writeReg r v).fl = s.fl := rfl
@[simp] theorem State.writeReg_mem (r : RegIdx) (v : Byte) : (s.writeReg r v).mem = s.mem := rfl
@[simp] theorem State.writeReg_status (r : RegIdx) (v : Byte) : (s.writeReg r v).status = s.status := rfl
@[simp] theorem State.writeReg_cause (r : RegIdx) (v : Byte) : (s.writeReg r v).cause = s.cause := rfl
@[simp] theorem State.writeReg_fault (r : RegIdx) (v : Byte) : (s.writeReg r v).fault = s.fault := rfl
@[simp] theorem State.writeReg_out (r : RegIdx) (v : Byte) : (s.writeReg r v).out = s.out := rfl

/-! ### decSp -/

@[simp] theorem State.decSp_pc : (s.decSp).pc = s.pc := rfl
@[simp] theorem State.decSp_fl : (s.decSp).fl = s.fl := rfl
@[simp] theorem State.decSp_mem : (s.decSp).mem = s.mem := rfl
@[simp] theorem State.decSp_status : (s.decSp).status = s.status := rfl
@[simp] theorem State.decSp_cause : (s.decSp).cause = s.cause := rfl
@[simp] theorem State.decSp_fault : (s.decSp).fault = s.fault := rfl
@[simp] theorem State.decSp_out : (s.decSp).out = s.out := rfl

/-! ### incSp -/

@[simp] theorem State.incSp_pc : (s.incSp).pc = s.pc := rfl
@[simp] theorem State.incSp_fl : (s.incSp).fl = s.fl := rfl
@[simp] theorem State.incSp_mem : (s.incSp).mem = s.mem := rfl
@[simp] theorem State.incSp_status : (s.incSp).status = s.status := rfl
@[simp] theorem State.incSp_cause : (s.incSp).cause = s.cause := rfl
@[simp] theorem State.incSp_fault : (s.incSp).fault = s.fault := rfl
@[simp] theorem State.incSp_out : (s.incSp).out = s.out := rfl

/-! ### advance -/

@[simp] theorem State.advance_regs (n : Nat) : (s.advance n).regs = s.regs := rfl
@[simp] theorem State.advance_pc (n : Nat) : (s.advance n).pc = s.pc + BitVec.ofNat Config.pcWidth (1 + n) := rfl
@[simp] theorem State.advance_fl (n : Nat) : (s.advance n).fl = s.fl := rfl
@[simp] theorem State.advance_mem (n : Nat) : (s.advance n).mem = s.mem := rfl
@[simp] theorem State.advance_status (n : Nat) : (s.advance n).status = s.status := rfl
@[simp] theorem State.advance_cause (n : Nat) : (s.advance n).cause = s.cause := rfl
@[simp] theorem State.advance_fault (n : Nat) : (s.advance n).fault = s.fault := rfl
@[simp] theorem State.advance_out (n : Nat) : (s.advance n).out = s.out := rfl
@[simp] theorem State.advance_readReg (n : Nat) (q : RegIdx) : (s.advance n).readReg q = s.readReg q := rfl
@[simp] theorem State.advance_sp (n : Nat) : (s.advance n).sp = s.sp := rfl

/-! ### jump -/

@[simp] theorem State.jump_regs (v : Byte) : (s.jump v).regs = s.regs := rfl
@[simp] theorem State.jump_pc (v : Byte) : (s.jump v).pc = v.setWidth Config.pcWidth := rfl
@[simp] theorem State.jump_fl (v : Byte) : (s.jump v).fl = s.fl := rfl
@[simp] theorem State.jump_mem (v : Byte) : (s.jump v).mem = s.mem := rfl
@[simp] theorem State.jump_status (v : Byte) : (s.jump v).status = s.status := rfl
@[simp] theorem State.jump_cause (v : Byte) : (s.jump v).cause = s.cause := rfl
@[simp] theorem State.jump_fault (v : Byte) : (s.jump v).fault = s.fault := rfl
@[simp] theorem State.jump_out (v : Byte) : (s.jump v).out = s.out := rfl
@[simp] theorem State.jump_readReg (v : Byte) (q : RegIdx) : (s.jump v).readReg q = s.readReg q := rfl
@[simp] theorem State.jump_sp (v : Byte) : (s.jump v).sp = s.sp := rfl

/-! ### emit -/

@[simp] theorem State.emit_regs (v : Byte) : (s.emit v).regs = s.regs := rfl
@[simp] theorem State.emit_pc (v : Byte) : (s.emit v).pc = s.pc := rfl
@[simp] theorem State.emit_fl (v : Byte) : (s.emit v).fl = s.fl := rfl
@[simp] theorem State.emit_mem (v : Byte) : (s.emit v).mem = s.mem := rfl
@[simp] theorem State.emit_status (v : Byte) : (s.emit v).status = s.status := rfl
@[simp] theorem State.emit_cause (v : Byte) : (s.emit v).cause = s.cause := rfl
@[simp] theorem State.emit_fault (v : Byte) : (s.emit v).fault = s.fault := rfl
@[simp] theorem State.emit_out (v : Byte) : (s.emit v).out = s.out ++ [v] := rfl
@[simp] theorem State.emit_readReg (v : Byte) (q : RegIdx) : (s.emit v).readReg q = s.readReg q := rfl
@[simp] theorem State.emit_sp (v : Byte) : (s.emit v).sp = s.sp := rfl

/-! ### writeFl -/

@[simp] theorem State.writeFl_regs (v : Byte) : (s.writeFl v).regs = s.regs := rfl
@[simp] theorem State.writeFl_pc (v : Byte) : (s.writeFl v).pc = s.pc := rfl
@[simp] theorem State.writeFl_fl (v : Byte) : (s.writeFl v).fl = v := rfl
@[simp] theorem State.writeFl_mem (v : Byte) : (s.writeFl v).mem = s.mem := rfl
@[simp] theorem State.writeFl_status (v : Byte) : (s.writeFl v).status = s.status := rfl
@[simp] theorem State.writeFl_cause (v : Byte) : (s.writeFl v).cause = s.cause := rfl
@[simp] theorem State.writeFl_fault (v : Byte) : (s.writeFl v).fault = s.fault := rfl
@[simp] theorem State.writeFl_out (v : Byte) : (s.writeFl v).out = s.out := rfl
@[simp] theorem State.writeFl_readReg (v : Byte) (q : RegIdx) : (s.writeFl v).readReg q = s.readReg q := rfl
@[simp] theorem State.writeFl_sp (v : Byte) : (s.writeFl v).sp = s.sp := rfl

/-! ### halt -/

@[simp] theorem State.halt_regs (c : HaltCause) : (s.halt c).regs = s.regs := rfl
@[simp] theorem State.halt_pc (c : HaltCause) : (s.halt c).pc = s.pc := rfl
@[simp] theorem State.halt_fl (c : HaltCause) : (s.halt c).fl = s.fl := rfl
@[simp] theorem State.halt_mem (c : HaltCause) : (s.halt c).mem = s.mem := rfl
@[simp] theorem State.halt_status (c : HaltCause) : (s.halt c).status = .halted := rfl
@[simp] theorem State.halt_cause (c : HaltCause) : (s.halt c).cause = some c := rfl
@[simp] theorem State.halt_fault (c : HaltCause) : (s.halt c).fault = s.fault := rfl
@[simp] theorem State.halt_out (c : HaltCause) : (s.halt c).out = s.out := rfl
@[simp] theorem State.halt_readReg (c : HaltCause) (q : RegIdx) : (s.halt c).readReg q = s.readReg q := rfl
@[simp] theorem State.halt_sp (c : HaltCause) : (s.halt c).sp = s.sp := rfl

/-! ### faultWith -/

@[simp] theorem State.faultWith_regs (e : FatalError) (d : Nat) : (s.faultWith e d).regs = s.regs := rfl
@[simp] theorem State.faultWith_pc (e : FatalError) (d : Nat) : (s.faultWith e d).pc = s.pc := rfl
@[simp] theorem State.faultWith_fl (e : FatalError) (d : Nat) : (s.faultWith e d).fl = s.fl := rfl
@[simp] theorem State.faultWith_mem (e : FatalError) (d : Nat) : (s.faultWith e d).mem = s.mem := rfl
@[simp] theorem State.faultWith_status (e : FatalError) (d : Nat) : (s.faultWith e d).status = .faulted := rfl
@[simp] theorem State.faultWith_cause (e : FatalError) (d : Nat) : (s.faultWith e d).cause = s.cause := rfl
@[simp] theorem State.faultWith_fault (e : FatalError) (d : Nat) : (s.faultWith e d).fault = some ⟨e, s.pc, d⟩ := rfl
@[simp] theorem State.faultWith_out (e : FatalError) (d : Nat) : (s.faultWith e d).out = s.out := rfl
@[simp] theorem State.faultWith_readReg (e : FatalError) (d : Nat) (q : RegIdx) : (s.faultWith e d).readReg q = s.readReg q := rfl
@[simp] theorem State.faultWith_sp (e : FatalError) (d : Nat) : (s.faultWith e d).sp = s.sp := rfl

/-! ### Registers -/

@[simp] theorem State.writeReg_readReg (r q : RegIdx) (v : Byte) :
    (s.writeReg r v).readReg q = if q = r then v else s.readReg q := by
  simp [State.writeReg, State.readReg, Vector.getElem_set, Fin.ext_iff, eq_comm]

/-- Writing back what a register holds changes nothing. -/
theorem State.writeReg_self (r : RegIdx) : s.writeReg r (s.readReg r) = s := by
  simp [State.writeReg, State.readReg]

@[simp] theorem State.writeReg_sp (r : RegIdx) (v : Byte) :
    (s.writeReg r v).sp = if spIdx = r then v else s.sp := s.writeReg_readReg r spIdx v

@[simp] theorem State.decSp_readReg (q : RegIdx) :
    s.decSp.readReg q = if q = spIdx then s.sp - 1 else s.readReg q := s.writeReg_readReg spIdx q _

@[simp] theorem State.incSp_readReg (q : RegIdx) :
    s.incSp.readReg q = if q = spIdx then s.sp + 1 else s.readReg q := s.writeReg_readReg spIdx q _

@[simp] theorem State.decSp_sp : s.decSp.sp = s.sp - 1 := by simp [State.decSp]

@[simp] theorem State.incSp_sp : s.incSp.sp = s.sp + 1 := by simp [State.incSp]

/-- Two states are equal when every part of them reads equal. -/
theorem State.ext_of_reads (t : State) (hregs : ∀ r, t.readReg r = s.readReg r) (hpc : t.pc = s.pc) (hfl : t.fl = s.fl)
    (hmem : t.mem = s.mem) (hstatus : t.status = s.status) (hcause : t.cause = s.cause) (hfault : t.fault = s.fault)
    (hout : t.out = s.out) : t = s := by
  have h : t.regs = s.regs := Vector.ext fun i hi => hregs ⟨i, hi⟩
  cases s
  cases t
  simp_all

/-! ### raise -/

@[simp] theorem State.raise_regs (e : Raised) : (s.raise e).regs = s.regs := by cases e <;> rfl
@[simp] theorem State.raise_pc (e : Raised) : (s.raise e).pc = s.pc := by cases e <;> rfl
@[simp] theorem State.raise_fl (e : Raised) : (s.raise e).fl = s.fl := by cases e <;> rfl
@[simp] theorem State.raise_mem (e : Raised) : (s.raise e).mem = s.mem := by cases e <;> rfl
@[simp] theorem State.raise_out (e : Raised) : (s.raise e).out = s.out := by cases e <;> rfl
@[simp] theorem State.raise_readReg (e : Raised) (q : RegIdx) : (s.raise e).readReg q = s.readReg q := by
  cases e <;> rfl

/-- No raise leaves the machine Running. -/
theorem State.raise_status_ne_running (e : Raised) : (s.raise e).status ≠ .running := by
  cases e <;> simp [State.raise]

@[simp] theorem State.raise_unknownOpcode (d : Byte) :
    s.raise (.unknownOpcode d) = s.faultWith .unknownOpcode d.toNat := rfl
@[simp] theorem State.raise_outOfBounds (sub : OobSubkind) (d : Nat) :
    s.raise (.outOfBounds sub d) = s.faultWith (.outOfBoundsAccess sub) d := rfl
@[simp] theorem State.raise_divideByZero (d : Byte) : s.raise (.divideByZero d) = s.halt .divZero := rfl

/-! ### Flags -/

theorem State.writeFl_flE (v : Byte) : (s.writeFl v).flE = v.getLsbD 0 := rfl
theorem State.writeReg_flE (r : RegIdx) (v : Byte) : (s.writeReg r v).flE = s.flE := rfl

end Sys2Proof.Machine
end

