-- ==== Sys2Proof/Laws/Ops.lean ====
section
/-! SUPPORT. One lemma per shared operation, saying everything it can do; the provers cite these instead of unfolding it. -/

namespace Sys2Proof.Machine

/-! ### Access (R40, R41) -/

theorem readMem_of_lt (sub : OobSubkind) (s : State) {a : Nat} (h : a < Config.memSize) :
    readMem sub s a = .ok (Memory.read s.mem a) := if_pos h

theorem readMem_of_ge (sub : OobSubkind) (s : State) {a : Nat} (h : Config.memSize ≤ a) :
    readMem sub s a = .error (.outOfBounds sub a) := if_neg (by omega)

theorem writeMem_of_lt (sub : OobSubkind) (s : State) {a : Nat} (v : Byte) (h : a < Config.memSize) :
    writeMem sub s a v = .ok { s with mem := Memory.write s.mem a v } := if_pos h

/-- A stack address is a byte, so it is in bounds (R41). -/
theorem sp_lt_memSize (s : State) : s.sp.toNat < Config.memSize := s.sp.isLt

/-- A stack read never raises (R41): DATA is raised by no instruction (60_exceptions.md R118). -/
@[simp] theorem loadAtSp_eq (s : State) : loadAtSp s = .ok (Memory.read s.mem s.sp.toNat) :=
  readMem_of_lt .data s (sp_lt_memSize s)

/-- A stack write never raises and changes the one cell at SP (R41). -/
@[simp] theorem storeAtSp_eq (s : State) (v : Byte) :
    storeAtSp s v = .ok { s with mem := Memory.write s.mem s.sp.toNat v } :=
  writeMem_of_lt .data s v (sp_lt_memSize s)

/-! ### Operand forms (R64, R74) -/

theorem legalReg_iff {b : Byte} : legalReg b = true ↔ b.toNat < 8 := by simp [legalReg]

theorem regIdx_val {b : Byte} (h : b.toNat < 8) : (regIdx b).val = b.toNat := Nat.mod_eq_of_lt h

theorem withReg_of_legal {b : Byte} (h : b.toNat < 8) (k : RegIdx → Except Raised State) :
    withReg b k = k (regIdx b) := if_pos (legalReg_iff.mpr h)

theorem withReg_of_illegal {b : Byte} (h : 8 ≤ b.toNat) (k : RegIdx → Except Raised State) :
    withReg b k = .error (.outOfBounds .register b.toNat) :=
  if_neg fun hl => absurd (legalReg_iff.mp hl) (by omega)

/-- Everything `withReg` can do. -/
theorem withReg_cases (b : Byte) (k : RegIdx → Except Raised State) :
    (b.toNat < 8 ∧ withReg b k = k (regIdx b)) ∨
      (8 ≤ b.toNat ∧ withReg b k = .error (.outOfBounds .register b.toNat)) := by
  rcases Nat.lt_or_ge b.toNat 8 with h | h
  · exact .inl ⟨h, withReg_of_legal h k⟩
  · exact .inr ⟨h, withReg_of_illegal h k⟩

/-- Everything `withRegs` can do: `op1` is checked before `op2`. -/
theorem withRegs_cases (a b : Byte) (k : RegIdx → RegIdx → Except Raised State) :
    (a.toNat < 8 ∧ b.toNat < 8 ∧ withRegs a b k = k (regIdx a) (regIdx b)) ∨
      (8 ≤ a.toNat ∧ withRegs a b k = .error (.outOfBounds .register a.toNat)) ∨
        (a.toNat < 8 ∧ 8 ≤ b.toNat ∧ withRegs a b k = .error (.outOfBounds .register b.toNat)) := by
  unfold withRegs
  rcases withReg_cases a fun ra => withReg b fun rb => k ra rb with ⟨ha, e⟩ | ⟨ha, e⟩
  · rcases withReg_cases b (k (regIdx a)) with ⟨hb, e'⟩ | ⟨hb, e'⟩
    · exact .inl ⟨ha, hb, e.trans e'⟩
    · exact .inr (.inr ⟨ha, hb, e.trans e'⟩)
  · exact .inr (.inl ⟨ha, e⟩)

/-! ### Ending a handler (R78, R122) -/

@[simp] theorem outcomeOf_ok (s t : State) : outcomeOf s (.ok t) = .next t := rfl

@[simp] theorem outcomeOf_error (s : State) (e : Raised) : outcomeOf s (.error e) = .next (s.raise e) := rfl

/-- A handler always ends in a next state: the one it built, or a raise from where the step started. -/
theorem outcomeOf_next {s t : State} {r : Except Raised State} (h : outcomeOf s r = .next t) :
    r = .ok t ∨ ∃ e, r = .error e ∧ t = s.raise e := by
  cases r with
  | ok u => exact .inl (by simpa using h)
  | error e => exact .inr ⟨e, rfl, by simpa using h.symm⟩

theorem exists_outcomeOf (s : State) (r : Except Raised State) : ∃ t, outcomeOf s r = .next t := by
  cases r <;> exact ⟨_, rfl⟩

end Sys2Proof.Machine
end

