-- ==== Sys2Proof/Laws/Step.lean ====
section
/-! SUPPORT. What fetching and stepping can do. -/

namespace Sys2Proof.Machine

theorem fetchByte_of_lt (s : State) {k : Nat} (h : s.pc.toNat + k < Config.memSize) :
    fetchByte s k = some (Memory.read s.mem (s.pc.toNat + k)) := by
  unfold fetchByte
  rw [readMem_of_lt _ s h]
  rfl

theorem fetchByte_of_ge (s : State) {k : Nat} (h : Config.memSize ≤ s.pc.toNat + k) : fetchByte s k = none := by
  unfold fetchByte
  rw [readMem_of_ge _ s h]
  rfl

/-- A fetched byte lies in memory. -/
theorem fetchByte_some {s : State} {k : Nat} {b : Byte} (h : fetchByte s k = some b) :
    s.pc.toNat + k < Config.memSize ∧ b = Memory.read s.mem (s.pc.toNat + k) := by
  rcases Nat.lt_or_ge (s.pc.toNat + k) Config.memSize with hlt | hge
  · rw [fetchByte_of_lt s hlt] at h
    exact ⟨hlt, (Option.some.inj h).symm⟩
  · rw [fetchByte_of_ge s hge] at h
    cases h

theorem fetch_of_decode {s : State} {i : Instr} (h : decodeFrom Config.opcodeMap (fetchByte s) = .ok i) :
    fetch s = .ok i := by simp [fetch, h]

theorem fetch_of_error {s : State} {e : DecodeError} (h : decodeFrom Config.opcodeMap (fetchByte s) = .error e) :
    fetch s = .error (fetchRaises s e) := by simp [fetch, h]

/-- A fetch that gives an instruction decoded it. -/
theorem fetch_ok {s : State} {i : Instr} (h : fetch s = .ok i) :
    decodeFrom Config.opcodeMap (fetchByte s) = .ok i := by
  unfold fetch at h
  split at h <;> simp_all

theorem step_running {s : State} (h : s.status = .running) : step s = stepRunning exec s := by simp [step, h]

/-- Everything a step that has a next state can have done. -/
theorem step_next {s t : State} (h : step s = .next t) :
    s.status = .running ∧
      ((∃ i, fetch s = .ok i ∧ exec i s = .next t) ∨ ∃ e, fetch s = .error e ∧ t = s.raise e) := by
  cases hs : s.status with
  | halted => simp [step, hs] at h
  | faulted => simp [step, hs] at h
  | running =>
    rw [step_running hs] at h
    unfold stepRunning at h
    refine ⟨rfl, ?_⟩
    cases hf : fetch s with
    | ok i =>
      simp only [hf] at h
      exact .inl ⟨i, rfl, h⟩
    | error e =>
      simp only [hf, Host.Outcome.next.injEq] at h
      exact .inr ⟨e, rfl, h.symm⟩

/-- `exec` always answers a next state. -/
theorem exists_exec (i : Instr) (s : State) : ∃ t, exec i s = .next t := by
  cases i <;>
    simp only [exec, execHlt, execRet, execPush, execPop, execPrn, execCall, execJmp, execJeq, execJne, execNot, execLdi,
      execAdd, execMul, execMod, execCmp, execAnd, execOr, execXor, execShl, execShr, aluBinary] <;>
    exact exists_outcomeOf s _

/-- A state that is running with room for three bytes at `pc` is already ready. -/
theorem State.readyToFetch_eq {s : State} (h : s.status = .running) (hpc : s.pc.toNat + 3 ≤ Config.memSize) :
    s.readyToFetch = s := by simp [State.readyToFetch, h, hpc]

end Sys2Proof.Machine
end

