-- ==== Sys2Proof/Laws/Exec.lean ====
section
/-! SUPPORT. What each meaning can have done when it answers a next state: a register fault, or its own effect. The
whole-machine proofs split on these instead of unfolding a meaning. -/

namespace Sys2Proof.Machine

/-- `t` is `s` Faulted with REGISTER for the operand byte `b` (R74). -/
def RegisterFault (s t : State) (b : Byte) : Prop :=
  8 ≤ b.toNat ∧ t = s.faultWith (.outOfBoundsAccess .register) b.toNat

theorem outcomeOf_withReg_cases {s t : State} {r : Byte} {k : RegIdx → Except Raised State}
    (h : outcomeOf s (withReg r k) = .next t) :
    RegisterFault s t r ∨ (r.toNat < 8 ∧ outcomeOf s (k (regIdx r)) = .next t) := by
  rcases withReg_cases r k with ⟨hr, e⟩ | ⟨hr, e⟩ <;> rw [e] at h
  · exact .inr ⟨hr, h⟩
  · exact .inl ⟨hr, by simpa using h.symm⟩

theorem outcomeOf_withRegs_cases {s t : State} {a b : Byte} {k : RegIdx → RegIdx → Except Raised State}
    (h : outcomeOf s (withRegs a b k) = .next t) :
    (RegisterFault s t a ∨ RegisterFault s t b) ∨
      (a.toNat < 8 ∧ b.toNat < 8 ∧ outcomeOf s (k (regIdx a) (regIdx b)) = .next t) := by
  rcases outcomeOf_withReg_cases h with ha | ⟨ha, h⟩
  · exact .inl (.inl ha)
  · rcases outcomeOf_withReg_cases h with hb | ⟨hb, h⟩
    · exact .inl (.inr hb)
    · exact .inr ⟨ha, hb, h⟩

/-! ### Two register operands (F2RR): ADD, MUL, AND, OR, XOR, SHL and SHR are `aluBinary` of their operation -/

theorem aluBinary_cases {op : Byte → Byte → Byte} {a b : Byte} {s t : State} (h : aluBinary op a b s = .next t) :
    (RegisterFault s t a ∨ RegisterFault s t b) ∨
      (a.toNat < 8 ∧ b.toNat < 8 ∧
        t = (s.writeReg (regIdx a) (op (s.readReg (regIdx a)) (s.readReg (regIdx b)))).advance 2) := by
  rcases outcomeOf_withRegs_cases h with hf | ⟨ha, hb, h⟩
  · exact .inl hf
  · exact .inr ⟨ha, hb, by simpa using h.symm⟩

theorem execMod_cases {a b : Byte} {s t : State} (h : execMod a b s = .next t) :
    (RegisterFault s t a ∨ RegisterFault s t b) ∨
      (a.toNat < 8 ∧ b.toNat < 8 ∧ s.readReg (regIdx b) = 0 ∧ t = s.halt .divZero) ∨
        (a.toNat < 8 ∧ b.toNat < 8 ∧ s.readReg (regIdx b) ≠ 0 ∧
          t = (s.writeReg (regIdx a) (aluMod (s.readReg (regIdx a)) (s.readReg (regIdx b)))).advance 2) := by
  rcases outcomeOf_withRegs_cases h with hf | ⟨ha, hb, h⟩
  · exact .inl hf
  · by_cases hz : s.readReg (regIdx b) = 0
    · simp only [hz, if_true, outcomeOf_error, State.raise_divideByZero, Host.Outcome.next.injEq] at h
      exact .inr (.inl ⟨ha, hb, hz, h.symm⟩)
    · simp only [hz, if_false, outcomeOf_ok, Host.Outcome.next.injEq] at h
      exact .inr (.inr ⟨ha, hb, hz, h.symm⟩)

theorem execCmp_cases {a b : Byte} {s t : State} (h : execCmp a b s = .next t) :
    (RegisterFault s t a ∨ RegisterFault s t b) ∨
      (a.toNat < 8 ∧ b.toNat < 8 ∧
        t = (s.writeFl (compareFlags (s.readReg (regIdx a)) (s.readReg (regIdx b)))).advance 2) := by
  rcases outcomeOf_withRegs_cases h with hf | ⟨ha, hb, h⟩
  · exact .inl hf
  · exact .inr ⟨ha, hb, by simpa using h.symm⟩

/-! ### One register operand (F1R, F2RI) -/

theorem execNot_cases {r : Byte} {s t : State} (h : execNot r s = .next t) :
    RegisterFault s t r ∨
      (r.toNat < 8 ∧ t = (s.writeReg (regIdx r) (aluNot (s.readReg (regIdx r)))).advance 1) := by
  rcases outcomeOf_withReg_cases h with hf | ⟨hr, h⟩
  · exact .inl hf
  · exact .inr ⟨hr, by simpa using h.symm⟩

theorem execLdi_cases {r i : Byte} {s t : State} (h : execLdi r i s = .next t) :
    RegisterFault s t r ∨
      (r.toNat < 8 ∧ t = (s.writeReg (regIdx r) i).advance 2) := by
  rcases outcomeOf_withReg_cases h with hf | ⟨hr, h⟩
  · exact .inl hf
  · exact .inr ⟨hr, by simpa using h.symm⟩

theorem execPrn_cases {r : Byte} {s t : State} (h : execPrn r s = .next t) :
    RegisterFault s t r ∨
      (r.toNat < 8 ∧ t = (s.emit (s.readReg (regIdx r))).advance 1) := by
  rcases outcomeOf_withReg_cases h with hf | ⟨hr, h⟩
  · exact .inl hf
  · exact .inr ⟨hr, by simpa using h.symm⟩

theorem execPush_cases {r : Byte} {s t : State} (h : execPush r s = .next t) :
    RegisterFault s t r ∨
      (r.toNat < 8 ∧ t = ({ s.decSp with
        mem := Memory.write s.mem s.decSp.sp.toNat (s.decSp.readReg (regIdx r)) } : State).advance 1) := by
  rcases outcomeOf_withReg_cases h with hf | ⟨hr, h⟩
  · exact .inl hf
  · exact .inr ⟨hr, by simpa using h.symm⟩

theorem execPop_cases {r : Byte} {s t : State} (h : execPop r s = .next t) :
    RegisterFault s t r ∨
      (r.toNat < 8 ∧ t = (s.writeReg (regIdx r) (Memory.read s.mem s.sp.toNat)).incSp.advance 1) := by
  rcases outcomeOf_withReg_cases h with hf | ⟨hr, h⟩
  · exact .inl hf
  · exact .inr ⟨hr, by simpa using h.symm⟩

theorem execJmp_cases {r : Byte} {s t : State} (h : execJmp r s = .next t) :
    RegisterFault s t r ∨
      (r.toNat < 8 ∧ t = s.jump (s.readReg (regIdx r))) := by
  rcases outcomeOf_withReg_cases h with hf | ⟨hr, h⟩
  · exact .inl hf
  · exact .inr ⟨hr, by simpa using h.symm⟩

theorem execJeq_cases {r : Byte} {s t : State} (h : execJeq r s = .next t) :
    RegisterFault s t r ∨
      (r.toNat < 8 ∧ t = if s.flE then s.jump (s.readReg (regIdx r)) else s.advance 1) := by
  rcases outcomeOf_withReg_cases h with hf | ⟨hr, h⟩
  · exact .inl hf
  · exact .inr ⟨hr, by simpa using h.symm⟩

theorem execJne_cases {r : Byte} {s t : State} (h : execJne r s = .next t) :
    RegisterFault s t r ∨
      (r.toNat < 8 ∧ t = if s.flE then s.advance 1 else s.jump (s.readReg (regIdx r))) := by
  rcases outcomeOf_withReg_cases h with hf | ⟨hr, h⟩
  · exact .inl hf
  · exact .inr ⟨hr, by simpa using h.symm⟩

theorem execCall_cases {r : Byte} {s t : State} (h : execCall r s = .next t) :
    RegisterFault s t r ∨
      (r.toNat < 8 ∧ 255 < s.pc.toNat + 2 ∧
        t = s.faultWith (.outOfBoundsAccess .returnAddress) (s.pc.toNat + 2)) ∨
        (r.toNat < 8 ∧ s.pc.toNat + 2 ≤ 255 ∧
          t = ({ s.decSp with
            mem := Memory.write s.mem s.decSp.sp.toNat (u8 (s.pc.toNat + 2)) } : State).jump
              (s.decSp.readReg (regIdx r))) := by
  rcases outcomeOf_withReg_cases h with hf | ⟨hr, h⟩
  · exact .inl hf
  · by_cases hp : s.pc.toNat + 2 > 255
    · simp only [hp, if_true, outcomeOf_error, State.raise_outOfBounds, Host.Outcome.next.injEq] at h
      exact .inr (.inl ⟨hr, hp, h.symm⟩)
    · simp only [hp, if_false, storeAtSp_eq, outcomeOf_ok, Host.Outcome.next.injEq] at h
      exact .inr (.inr ⟨hr, by omega, h.symm⟩)

/-! ### No operand (F0) -/

theorem execRet_eq (s : State) : execRet s = .next (s.jump (Memory.read s.mem s.sp.toNat)).incSp := by
  simp [execRet]

theorem execHlt_eq (s : State) : execHlt s = .next ((s.advance 0).halt .hlt) := rfl

end Sys2Proof.Machine
end

