-- ==== Sys2Proof/Laws/Init.lean ====
section
/-! SUPPORT. The initial states (R14, R137). -/

namespace Sys2Proof.Machine

/-- `State.reset` is the initial state with an empty image for the draw that is 0 everywhere (log 1). -/
theorem init_zero_eq_reset : init (Vector.replicate 7 0) [] = some State.reset := by decide

/-- Memory at reset is canonical. -/
theorem reset_mem_wf : Memory.wf State.reset.mem = true := rfl

/-- What `init` gives when it gives a state. -/
theorem init_some {rInit : Vector Byte 7} {image : List Byte} {s : State} (h : init rInit image = some s) :
    image.length ≤ Config.memSize ∧
      s = { State.reset with regs := resetRegs rInit, mem := Memory.place [] 0 image } := by
  unfold init at h
  split at h
  · rename_i hl
    exact ⟨hl, (Option.some.inj h).symm⟩
  · cases h

end Sys2Proof.Machine
end

