-- ==== Sys2Proof/Laws/PerInstr.lean ====
section
/-! SUPPORT. Facts about every instruction as syntax, one lemma per constructor. EncodingShape: the encoding under the
default map is as long as the instruction (30_encoding.md R62), and the decoder's two fields of its first byte are the
instruction's operand count and sets_pc (R58, R59, R79). -/

namespace Sys2Proof

/-- The encoding's length and the fields of its opcode byte are those of the instruction. -/
def Laws.EncodingShape.Statement (i : Instr) : Prop :=
  (encode i).length = i.length ∧
    (encode i).head?.map decodeOpcode = some ⟨i.mnemonic.operandCount, i.mnemonic.setsPc⟩

/-- The part that needs no case split: the default map's bytes carry the fields that R61 demands. -/
theorem encode_head_fields (i : Instr) :
    (encode i).head?.map decodeOpcode = some ⟨i.mnemonic.operandCount, i.mnemonic.setsPc⟩ := by
  obtain ⟨-, hcount, hsets⟩ := opcodeMap_valid
  have h : decodeOpcode (Config.opcodeMap i.mnemonic) = ⟨i.mnemonic.operandCount, i.mnemonic.setsPc⟩ := by
    rw [← hcount, ← hsets]
  simp [encode, encodeWith, h]

theorem Laws.EncodingShape.hlt : Laws.EncodingShape.Statement .hlt := ⟨rfl, encode_head_fields _⟩
theorem Laws.EncodingShape.ret : Laws.EncodingShape.Statement .ret := ⟨rfl, encode_head_fields _⟩
theorem Laws.EncodingShape.push (r : Byte) : Laws.EncodingShape.Statement (.push r) := ⟨rfl, encode_head_fields _⟩
theorem Laws.EncodingShape.pop (r : Byte) : Laws.EncodingShape.Statement (.pop r) := ⟨rfl, encode_head_fields _⟩
theorem Laws.EncodingShape.prn (r : Byte) : Laws.EncodingShape.Statement (.prn r) := ⟨rfl, encode_head_fields _⟩
theorem Laws.EncodingShape.call (r : Byte) : Laws.EncodingShape.Statement (.call r) := ⟨rfl, encode_head_fields _⟩
theorem Laws.EncodingShape.jmp (r : Byte) : Laws.EncodingShape.Statement (.jmp r) := ⟨rfl, encode_head_fields _⟩
theorem Laws.EncodingShape.jeq (r : Byte) : Laws.EncodingShape.Statement (.jeq r) := ⟨rfl, encode_head_fields _⟩
theorem Laws.EncodingShape.jne (r : Byte) : Laws.EncodingShape.Statement (.jne r) := ⟨rfl, encode_head_fields _⟩
theorem Laws.EncodingShape.not (r : Byte) : Laws.EncodingShape.Statement (.not r) := ⟨rfl, encode_head_fields _⟩
theorem Laws.EncodingShape.ldi (r i : Byte) : Laws.EncodingShape.Statement (.ldi r i) := ⟨rfl, encode_head_fields _⟩
theorem Laws.EncodingShape.add (a b : Byte) : Laws.EncodingShape.Statement (.add a b) := ⟨rfl, encode_head_fields _⟩
theorem Laws.EncodingShape.mul (a b : Byte) : Laws.EncodingShape.Statement (.mul a b) := ⟨rfl, encode_head_fields _⟩
theorem Laws.EncodingShape.mod (a b : Byte) : Laws.EncodingShape.Statement (.mod a b) := ⟨rfl, encode_head_fields _⟩
theorem Laws.EncodingShape.cmp (a b : Byte) : Laws.EncodingShape.Statement (.cmp a b) := ⟨rfl, encode_head_fields _⟩
theorem Laws.EncodingShape.and (a b : Byte) : Laws.EncodingShape.Statement (.and a b) := ⟨rfl, encode_head_fields _⟩
theorem Laws.EncodingShape.or (a b : Byte) : Laws.EncodingShape.Statement (.or a b) := ⟨rfl, encode_head_fields _⟩
theorem Laws.EncodingShape.xor (a b : Byte) : Laws.EncodingShape.Statement (.xor a b) := ⟨rfl, encode_head_fields _⟩
theorem Laws.EncodingShape.shl (a b : Byte) : Laws.EncodingShape.Statement (.shl a b) := ⟨rfl, encode_head_fields _⟩
theorem Laws.EncodingShape.shr (a b : Byte) : Laws.EncodingShape.Statement (.shr a b) := ⟨rfl, encode_head_fields _⟩

end Sys2Proof
end

