-- ==== Sys2Proof/Tests/Slice0.lean ====
section
/-! SUPPORT. The model's own tests. Expected values are the vectors V<n> and examples of spec/95_test_vectors.md, or are
written out from the encoding tables; each instruction test is one step of a small state. The last part shows, for every
statement with hypotheses, a state and operands that meet all of them. -/

namespace Sys2Proof.Tests

open Sys2Proof Sys2Proof.Machine

/-- A running state with these registers, flags and `pc`, and these bytes at `pc`. -/
def stateAt (regs : Vector Byte 8) (fl : Byte) (pc : Pc) (bytes : List Byte) : State :=
  { State.reset with regs := regs, fl := fl, pc := pc, mem := Memory.place [] pc.toNat bytes }

/-- The registers R0 and R1 with SP at reset. -/
def two (r0 r1 : Byte) : Vector Byte 8 := #v[r0, r1, 0, 0, 0, 0, 0, 0xF3]

/-- The next state of an outcome, if it has one. -/
def nextOf : Host.Outcome State Fault Refusal → Option State
  | .next s => some s
  | .fault _ => none
  | .refused _ => none

/-- What `view` shows of the state after one step. -/
def stepView {α : Type} (view : State → α) (s : State) : Option α := (nextOf (step s)).map view

/-! ### Well-formedness: an ill-formed term for each check -/

theorem test_wf_accepts : (Instr.add 0 7).wellFormed = true ∧ (Instr.ldi 7 255).wellFormed = true ∧
    Instr.hlt.wellFormed = true := by decide

theorem test_wf_refuses_op1 : (Instr.push 8).wellFormed = false ∧ (Instr.pop 255).wellFormed = false ∧
    (Instr.prn 8).wellFormed = false ∧ (Instr.call 8).wellFormed = false ∧ (Instr.jmp 8).wellFormed = false ∧
    (Instr.jeq 8).wellFormed = false ∧ (Instr.jne 8).wellFormed = false ∧ (Instr.not 8).wellFormed = false ∧
    (Instr.ldi 8 0).wellFormed = false ∧ (Instr.add 8 0).wellFormed = false := by decide

theorem test_wf_refuses_op2 : (Instr.add 0 8).wellFormed = false ∧ (Instr.mul 0 8).wellFormed = false ∧
    (Instr.mod 0 8).wellFormed = false ∧ (Instr.cmp 0 8).wellFormed = false ∧ (Instr.and 0 8).wellFormed = false ∧
    (Instr.or 0 8).wellFormed = false ∧ (Instr.xor 0 8).wellFormed = false ∧ (Instr.shl 0 8).wellFormed = false ∧
    (Instr.shr 0 8).wellFormed = false := by decide

/-- A map with two mnemonics on one byte, one with a wrong operand count, one with a wrong sets_pc (R61). -/
theorem test_map_refuses_ill_formed :
    ¬ OpcodeMap.Valid (fun k => if k = .ret then 0x01 else Config.opcodeMap k) ∧
    ¬ OpcodeMap.Valid (fun k => if k = .hlt then 0x41 else Config.opcodeMap k) ∧
    ¬ OpcodeMap.Valid (fun k => if k = .hlt then 0x10 else Config.opcodeMap k) :=
  ⟨fun h => absurd (h.1 .hlt .ret (by decide)) (by decide), fun h => absurd (h.2.1 .hlt) (by decide),
    fun h => absurd (h.2.2 .hlt) (by decide)⟩

/-! ### Decoding: bytes written out bit by bit from R60 and R63 -/

theorem test_decode_f0 : decode [0b00000001] = .ok .hlt ∧ decode [0b00010001] = .ok .ret := by decide

theorem test_decode_f1r : decode [0b01000101, 3] = .ok (.push 3) ∧ decode [0b01000110, 3] = .ok (.pop 3) ∧
    decode [0b01000111, 3] = .ok (.prn 3) ∧ decode [0b01010000, 3] = .ok (.call 3) ∧
    decode [0b01010100, 3] = .ok (.jmp 3) ∧ decode [0b01010101, 3] = .ok (.jeq 3) ∧
    decode [0b01010110, 3] = .ok (.jne 3) ∧ decode [0b01101001, 3] = .ok (.not 3) := by decide

theorem test_decode_f2ri : decode [0b10000010, 0b00000001, 0b11111111] = .ok (.ldi 1 255) := by decide

theorem test_decode_f2rr : decode [0b10100000, 1, 2] = .ok (.add 1 2) ∧ decode [0b10100010, 1, 2] = .ok (.mul 1 2) ∧
    decode [0b10100100, 1, 2] = .ok (.mod 1 2) ∧ decode [0b10100111, 1, 2] = .ok (.cmp 1 2) ∧
    decode [0b10101000, 1, 2] = .ok (.and 1 2) ∧ decode [0b10101010, 1, 2] = .ok (.or 1 2) ∧
    decode [0b10101011, 1, 2] = .ok (.xor 1 2) ∧ decode [0b10101100, 1, 2] = .ok (.shl 1 2) ∧
    decode [0b10101101, 1, 2] = .ok (.shr 1 2) := by decide

/-- V79, V80 and the empty and cut-short lists (R66, R67, R73). -/
theorem test_decode_rejects_by_name : decode [0xC0] = .error (.unknownOpcode 0xC0) ∧
    decode [0xA1, 0, 1] = .error (.unknownOpcode 0xA1) ∧ decode [0x00] = .error (.unknownOpcode 0x00) ∧
    decode [] = .error (.missingByte 0) ∧ decode [0x47] = .error (.missingByte 1) ∧
    decode [0x82, 0] = .error (.missingByte 2) := by decide

/-- The row of LDI as the opcode table numbers it: R1 in bits 15..8, 0xFF in bits 23..16. -/
theorem test_table_word : decodeTableWord 24 0xFF0182 = some (.ldi 1 0xFF) ∧
    decodeTableWord 8 0xA0 = some (.add 0 0) ∧ decodeTableWord 8 0x00 = none := by decide

theorem test_fetch_word_runs_first :
    stepView (fun t => (t.readReg 1, t.pc)) (State.reset.withFetchWord 24 0xFF0182) = some (0xFF, 3) := by decide

/-- A halted machine with `pc` at the end of memory is made ready to fetch (log 9). -/
theorem test_fetch_word_from_halted :
    stepView (fun t => (t.readReg 1, t.pc))
      ({ State.reset with status := .halted, cause := some .hlt, pc := 256 }.withFetchWord 24 0xFF0182) =
      some (0xFF, 3) := by decide

/-! ### ALU -/

/-- V1. -/
theorem test_add : stepView (fun t => (t.readReg 0, t.pc, t.fl)) (stateAt (two 200 100) 2 0 [0xA0, 0, 1]) =
    some (0x2C, 3, 2) := by decide
/-- V4: source and destination are one register. -/
theorem test_add_self : stepView (·.readReg 0) (stateAt (two 0x81 0) 0 0 [0xA0, 0, 0]) = some 0x02 := by decide
/-- V7. -/
theorem test_mul_wraps : stepView (·.readReg 0) (stateAt (two 0xFF 0xFF) 0 0 [0xA2, 0, 1]) = some 0x01 := by decide
/-- V10. -/
theorem test_mod : stepView (fun t => (t.readReg 0, t.pc)) (stateAt (two 10 3) 0 0 [0xA4, 0, 1]) = some (1, 3) := by
  decide
/-- V15. -/
theorem test_mod_by_zero :
    stepView (fun t => (t.status, t.cause, t.fault, t.readReg 0, t.pc)) (stateAt (two 10 0) 0 5 [0xA4, 0, 1]) =
      some (.halted, some .divZero, none, 10, 5) := by decide
/-- V27: FL is not written. -/
theorem test_and : stepView (fun t => (t.readReg 0, t.fl)) (stateAt (two 0x12 0x34) 1 0 [0xA8, 0, 1]) =
    some (0x10, 1) := by decide
/-- V20. -/
theorem test_or : stepView (·.readReg 0) (stateAt (two 0xF0 0x0F) 0 0 [0xAA, 0, 1]) = some 0xFF := by decide
/-- V22. -/
theorem test_xor : stepView (·.readReg 0) (stateAt (two 0xFF 0x0F) 0 0 [0xAB, 0, 1]) = some 0xF0 := by decide
/-- V25. -/
theorem test_not : stepView (fun t => (t.readReg 0, t.pc)) (stateAt (two 0xAA 0) 0 0 [0x69, 0]) = some (0x55, 2) := by
  decide
/-- V29. -/
theorem test_shl : stepView (·.readReg 0) (stateAt (two 0x81 1) 0 0 [0xAC, 0, 1]) = some 0x02 := by decide
/-- V32: the amount is not reduced modulo 8. -/
theorem test_shl_255 : stepView (·.readReg 0) (stateAt (two 0x01 255) 0 0 [0xAC, 0, 1]) = some 0x00 := by decide
/-- V36: logical, zero enters at bit 7. -/
theorem test_shr : stepView (·.readReg 0) (stateAt (two 0x80 1) 0 0 [0xAD, 0, 1]) = some 0x40 := by decide
/-- V37. -/
theorem test_shr_8 : stepView (·.readReg 0) (stateAt (two 0x80 8) 0 0 [0xAD, 0, 1]) = some 0x00 := by decide
/-- V42: unsigned. -/
theorem test_cmp_unsigned : stepView (fun t => (t.fl, t.flG)) (stateAt (two 0x80 0x7F) 0 0 [0xA7, 0, 1]) =
    some (0x02, true) := by decide
/-- V45 and V46: the whole byte is rewritten, and values are compared, not indices. -/
theorem test_cmp_rewrites : stepView (·.fl) (stateAt (two 1 1) 4 0 [0xA7, 0, 1]) = some 0x01 ∧
    stepView (·.fl) (stateAt (two 7 0) 0 0 [0xA7, 0, 1]) = some 0x02 := by decide

/-! ### LDI, PRN -/

/-- V47. -/
theorem test_ldi : stepView (fun t => (t.readReg 3, t.pc)) (stateAt (two 0 0) 0 0 [0x82, 3, 0xFF]) = some (0xFF, 3) := by
  decide
/-- V49. -/
theorem test_ldi_sp : stepView (·.sp) (stateAt (two 0 0) 0 0 [0x82, 7, 0x80]) = some 0x80 := by decide
/-- V51. -/
theorem test_prn : stepView (fun t => (t.out, t.pc)) (stateAt (two 72 0) 0 0 [0x47, 0]) = some ([72], 2) := by decide
/-- V52: the newest byte is last. -/
theorem test_prn_appends : stepView (·.out) { stateAt (two 0 0) 0 0 [0x47, 5] with out := [1] } = some [1, 0] := by decide

/-! ### Stack -/

/-- V53. -/
theorem test_push : stepView (fun t => (t.sp, Memory.read t.mem 0xF2, t.pc)) (stateAt (two 0x2A 0) 0 0 [0x45, 0]) =
    some (0xF2, 0x2A, 2) := by decide
/-- V55: the decremented SP is stored. -/
theorem test_push_sp : stepView (fun t => (t.sp, Memory.read t.mem 0xF2)) (stateAt (two 0 0) 0 0 [0x45, 7]) =
    some (0xF2, 0xF2) := by decide
/-- V57: SP wraps. -/
theorem test_pop_wraps : stepView (fun t => (t.readReg 0, t.sp))
    { stateAt (two 0 0) 0 0 [0x46, 0] with
      regs := #v[0, 0, 0, 0, 0, 0, 0, 0xFF], mem := [(0, 0x46), (0xFF, 0x77)] } = some (0x77, 0x00) := by decide
/-- V58: POP R7 leaves the popped byte plus 1. -/
theorem test_pop_sp : stepView (·.sp)
    { stateAt (two 0 0) 0 0 [0x46, 7] with
      regs := #v[0, 0, 0, 0, 0, 0, 0, 0xF2], mem := [(0, 0x46), (1, 7), (0xF2, 0x10)] } = some 0x11 := by decide

/-! ### Control transfer and halt -/

/-- V62: CALL R7 jumps to the decremented SP. -/
theorem test_call_sp : stepView (fun t => (t.sp, Memory.read t.mem 0xF2, t.pc)) (stateAt (two 0 0) 0 0x10 [0x50, 7]) =
    some (0xF2, 0x12, 0xF2) := by decide
/-- V63. -/
theorem test_call_return_address : stepView (fun t => (t.status, t.fault, t.sp, t.pc)) (stateAt (two 0 0x30) 0 0xFE [0x50, 1]) =
    some (.faulted, some ⟨.outOfBoundsAccess .returnAddress, 0xFE, 0x100⟩, 0xF3, 0xFE) := by decide
/-- V65. -/
theorem test_ret : stepView (fun t => (t.pc, t.sp))
    { stateAt (two 0 0) 0 0 [0x11] with
      regs := #v[0, 0, 0, 0, 0, 0, 0, 0xF2], mem := [(0, 0x11), (0xF2, 0x08)] } = some (0x08, 0xF3) := by decide
/-- V67. -/
theorem test_jmp : stepView (·.pc) (stateAt (two 0x40 0) 0 0 [0x54, 0]) = some 0x40 := by decide
/-- V69 and V70. -/
theorem test_jeq : stepView (·.pc) (stateAt (two 0x20 0) 1 5 [0x55, 0]) = some 0x20 ∧
    stepView (·.pc) (stateAt (two 0x20 0) 2 5 [0x55, 0]) = some 0x07 := by decide
/-- V75 and V74. -/
theorem test_jne : stepView (·.pc) (stateAt (two 0x0C 0) 0 5 [0x56, 0]) = some 0x0C ∧
    stepView (·.pc) (stateAt (two 0x0C 0) 1 5 [0x56, 0]) = some 0x07 := by decide
/-- V77: HLT in the last cell leaves a 9-bit `pc`. -/
theorem test_hlt_last_cell : stepView (fun t => (t.status, t.cause, t.pc)) (stateAt (two 0 0) 0 0xFF [0x01]) =
    some (.halted, some .hlt, 0x100) := by decide

/-! ### The step's errors -/

/-- V78 and V81. -/
theorem test_unknown_opcode : stepView (·.fault) State.reset = some (some ⟨.unknownOpcode, 0, 0⟩) ∧
    stepView (·.fault) (stateAt (two 0 0) 0 0xFF [0]) = some (some ⟨.unknownOpcode, 0xFF, 0⟩) := by decide
/-- V82, V83 and V64: the operand check comes before CALL's own. -/
theorem test_missing_operand :
    stepView (·.fault) (stateAt (two 0 0) 0 0xFF [0x47]) = some (some ⟨.outOfBoundsAccess .operand, 0xFF, 0x100⟩) ∧
    stepView (·.fault) (stateAt (two 0 0) 0 0xFE [0x82, 0]) = some (some ⟨.outOfBoundsAccess .operand, 0xFE, 0x100⟩) ∧
    stepView (·.fault) (stateAt (two 0 0) 0 0xFF [0x50]) = some (some ⟨.outOfBoundsAccess .operand, 0xFF, 0x100⟩) := by
  decide
/-- V84. -/
theorem test_fetch_beyond_memory :
    stepView (·.fault) (stateAt (two 0 0) 0 0x100 []) = some (some ⟨.outOfBoundsAccess .fetch, 0x100, 0x100⟩) := by decide
/-- V86, V87 and V88: REGISTER before DivideByZero, nothing masked, `op1` first. -/
theorem test_illegal_register :
    stepView (·.fault) (stateAt (two 0 0) 0 0 [0xA4, 9, 0]) = some (some ⟨.outOfBoundsAccess .register, 0, 9⟩) ∧
    stepView (·.fault) (stateAt (two 0 0) 0 0 [0xA0, 0, 0xFF]) = some (some ⟨.outOfBoundsAccess .register, 0, 0xFF⟩) ∧
    stepView (·.fault) (stateAt (two 0 0) 0 0 [0xA0, 0x0A, 0x0B]) =
      some (some ⟨.outOfBoundsAccess .register, 0, 0x0A⟩) := by decide
/-- V89. -/
theorem test_no_step_after_halt : step { State.reset with status := .halted } = .fault .noStepHalted ∧
    step { State.reset with status := .faulted } = .fault .noStepFaulted := ⟨rfl, rfl⟩

/-! ### Init, codes, outputs, assembler text -/

/-- The image of P1 with the draw 1..7. -/
theorem test_init : (init #v[1, 2, 3, 4, 5, 6, 7] [0x82, 0, 8]).map (fun s => (s.regs, s.mem, s.pc)) =
    some (#v[1, 2, 3, 4, 5, 6, 7, 0xF3], [(0, 0x82), (2, 8)], 0) := by decide

/-- The codes of R121. -/
theorem test_codes : (OobSubkind.code .returnAddress, HaltCause.code (some .divZero), RunStatus.code .faulted,
    ErrorKind.code (some .unsupportedAluOperation), ErrorKind.code (some (Raised.kind (.divideByZero 0))),
    ErrorKind.code (some (FatalError.kind .unknownOpcode))) = (3, 2, 2, 4, 3, 1) := by decide

/-- The status outputs and the record reported for V50 (R17, R136), and the debug port (R18). -/
theorem test_outputs : stepView (fun t => (t.statusOutputs, t.diagnostic)) (stateAt (two 0 0) 0 0 [0x82, 8, 1]) =
      some (⟨.faulted, none, some ⟨.outOfBoundsAccess .register, 0, 8⟩⟩,
        some ⟨.outOfBoundsAccess .register, 0, 8⟩) ∧
    (stateAt (two 1 2) 4 9 []).debugView = ⟨two 1 2, 9, 4⟩ := by decide

/-- The instructions of the example of R68. -/
theorem test_text : (Instr.ldi 0 8).text = some "LDI R0,8" ∧ (Instr.mul 0 1).text = some "MUL R0,R1" ∧
    (Instr.prn 0).text = some "PRN R0" ∧ Instr.hlt.text = some "HLT" ∧ (Instr.prn 8).text = none := by decide

/-! ### Witnesses: the hypotheses of each statement, met together -/

/-- DecodeInvertsEncodeForEveryValidMap, DecodedBytesBeginWithTheEncoding: a valid map other than the default (ADD and MUL
exchanged), and bytes that decode under it. -/
theorem witness_valid_map : OpcodeMap.Valid (fun k => Config.opcodeMap
      (if k = .add then .mul else if k = .mul then .add else k)) ∧
    decodeWith (fun k => Config.opcodeMap (if k = .add then .mul else if k = .mul then .add else k)) [0xA0, 1, 2, 9] =
      .ok (.mul 1 2) := by
  refine ⟨⟨fun j k h => ?_, fun k => ?_, fun k => ?_⟩, by decide⟩
  · cases j <;> cases k <;> first | rfl | exact absurd h (by decide)
  · cases k <;> decide
  · cases k <;> decide

/-- A running state with an LDI at `pc`. -/
def ldiState : State := stateAt (two 0 0) 0 0 [0x82, 3, 0xFF]

theorem witness_step_runs_the_decoded_instruction : ldiState.status = .running ∧
    decode ([ldiState.byteAt 0, ldiState.byteAt 1, ldiState.byteAt 2].take (256 - ldiState.pc.toNat)) =
      .ok (.ldi 3 0xFF) := by decide

/-- The boundary: a HLT in the last cell, with one byte left. -/
theorem witness_step_runs_the_decoded_instruction_last_cell :
    ∃ s : State, s.status = .running ∧ s.pc = 255 ∧
      decode ([s.byteAt 0, s.byteAt 1, s.byteAt 2].take (256 - s.pc.toNat)) = .ok .hlt :=
  ⟨stateAt (two 0 0) 0 255 [0x01], by decide⟩

theorem witness_step_runs_the_encoded_instruction : ldiState.status = .running ∧
    ldiState.pc.toNat + (encode (.ldi 3 0xFF)).length ≤ 256 ∧
    ∀ (k : Nat) (h : k < (encode (.ldi 3 0xFF)).length),
      Memory.read ldiState.mem (ldiState.pc.toNat + k) = (encode (.ldi 3 0xFF))[k] := by
  refine ⟨rfl, by decide, ?_⟩
  show ∀ (k : Nat) (h : k < 3), _
  decide

theorem witness_fetch_beyond_memory : ∃ s : State, s.status = .running ∧ 256 ≤ s.pc.toNat :=
  ⟨stateAt (two 0 0) 0 0x100 [], by decide⟩

theorem witness_unknown_opcode :
    ∃ s : State, s.status = .running ∧ s.pc.toNat < 256 ∧ s.byteAt 0 ∉ registeredOpcodes :=
  ⟨stateAt (two 0 0) 0 0xFF [0], by decide⟩

/-- Both operands: the first missing at 255, the second at 254. -/
theorem witness_missing_operand :
    (∃ s : State, s.status = .running ∧ s.pc = 255 ∧ s.byteAt 0 ∈ registeredOpcodes ∧
      256 < s.pc.toNat + 1 + (s.byteAt 0).toNat / 64) ∧
    (∃ s : State, s.status = .running ∧ s.pc = 254 ∧ s.byteAt 0 ∈ registeredOpcodes ∧
      256 < s.pc.toNat + 1 + (s.byteAt 0).toNat / 64) :=
  ⟨⟨stateAt (two 0 0) 0 255 [0x47], by decide⟩, ⟨stateAt (two 0 0) 0 254 [0x82, 0], by decide⟩⟩

/-- The first operand byte at the boundary value 8, and the second where the first is legal. -/
theorem witness_illegal_register :
    (Instr.prn 8).regOperands.find? (fun r => 7 < r.toNat) = some 8 ∧
    (Instr.add 7 8).regOperands.find? (fun r => 7 < r.toNat) = some 8 := by decide

theorem witness_phase_order : State.reset.status = .running := rfl

theorem witness_fatal_error : ∃ s t : State, step s = .next t ∧ t.status = .faulted := ⟨State.reset, _, rfl, rfl⟩

/-- Both ways to halt. -/
theorem witness_halts :
    (∃ s t : State, step s = .next t ∧ t.status = .halted ∧ t.cause = some .hlt) ∧
    (∃ s t : State, step s = .next t ∧ t.status = .halted ∧ t.cause = some .divZero) :=
  ⟨⟨stateAt (two 0 0) 0 0 [0x01], _, rfl, rfl, rfl⟩, ⟨stateAt (two 0 0) 0 0 [0xA4, 0, 1], _, rfl, rfl, rfl⟩⟩

/-- Both values of bit 4. -/
theorem witness_pc_update :
    (∃ s t : State, step s = .next t ∧ t.status ≠ .faulted ∧ t.cause ≠ some .divZero ∧
      (s.byteAt 0).getLsbD 4 = false) ∧
    (∃ s t : State, step s = .next t ∧ t.status ≠ .faulted ∧ t.cause ≠ some .divZero ∧
      (s.byteAt 0).getLsbD 4 = true) :=
  ⟨⟨ldiState, _, rfl, by decide, by decide, by decide⟩,
    ⟨stateAt (two 0 0) 0 0 [0x54, 0], _, rfl, by decide, by decide, by decide⟩⟩

/-- Reset takes a step: the byte 0 at address 0 is an unknown opcode. -/
theorem witness_step_keeps_invariant : ∃ s t : State, s.Inv ∧ step s = .next t :=
  ⟨State.reset, _, ⟨rfl, .inl rfl, by decide, ⟨rfl, rfl⟩⟩, rfl⟩

theorem witness_initial_state : ∃ s, init (Vector.replicate 7 9) [0x01] = some s := ⟨_, rfl⟩

/-- Both clauses of Init at the boundary length. -/
theorem witness_image_lengths : (List.replicate 256 (0 : Byte)).length ≤ 256 ∧
    256 < (List.replicate 257 (0 : Byte)).length := by
  rw [List.length_replicate, List.length_replicate]
  decide

theorem witness_canonical_memories : ∃ m n : Memory, Memory.wf m = true ∧ Memory.wf n = true ∧
    (∀ a, Memory.read m a = Memory.read n a) ∧ m ≠ [] := ⟨[(0, 1)], [(0, 1)], rfl, rfl, fun _ => rfl, by decide⟩

theorem witness_prn_emits : ∃ s t : State, exec (.prn 0) s = .next t ∧ t.out ≠ s.out :=
  ⟨State.reset, _, rfl, by decide⟩

theorem witness_flags_change : ∃ (i : Instr) (s t : State), exec i s = .next t ∧ t.fl ≠ s.fl :=
  ⟨.cmp 0 0, State.reset, _, rfl, by decide⟩

/-- Flags bytes that differ and agree on E. -/
theorem witness_flags_agree_on_equal : ∃ (i : Instr) (s t : State) (v : Byte), exec i s = .next t ∧
    v.getLsbD 0 = s.fl.getLsbD 0 ∧ v ≠ s.fl := ⟨.jeq 0, State.reset, _, 4, rfl, by decide, by decide⟩

theorem witness_store : ∃ (i : Instr) (s t : State) (a : Nat), exec i s = .next t ∧
    Memory.read t.mem a ≠ Memory.read s.mem a :=
  ⟨.push 7, State.reset, _, 0xF2, rfl, by decide⟩

theorem witness_sp_changes : ∃ (i : Instr) (s t : State), exec i s = .next t ∧ t.sp ≠ s.sp :=
  ⟨.ldi 7 0, State.reset, _, rfl, by decide⟩

theorem witness_pushed_byte : ∃ (s : State) (r : RegIdx) (t u : State), r ≠ spIdx ∧
    exec (.push (regByte r)) s = .next t ∧ u.mem = t.mem ∧ u.pc.toNat = t.sp.toNat :=
  ⟨State.reset, 0, _, { State.reset with pc := 0xF2 }, by decide, rfl, rfl, by decide⟩

/-- Both clauses of MOD; the divisor at the boundary value 1. -/
theorem witness_mod_clauses : (stateAt (two 10 1) 0 0 []).readReg 1 ≠ 0 ∧ (stateAt (two 10 0) 0 0 []).readReg 1 = 0 := by
  decide

theorem witness_shift_amount : 8 ≤ ((stateAt (two 1 8) 0 0 []).readReg 1).toNat := by decide

/-- The three clauses of CMP. -/
theorem witness_cmp_clauses :
    (((stateAt (two 5 5) 0 0 []).readReg 0).toNat = ((stateAt (two 5 5) 0 0 []).readReg 1).toNat) ∧
    (((stateAt (two 6 5) 0 0 []).readReg 1).toNat < ((stateAt (two 6 5) 0 0 []).readReg 0).toNat) ∧
    (((stateAt (two 5 6) 0 0 []).readReg 0).toNat < ((stateAt (two 5 6) 0 0 []).readReg 1).toNat) := by decide

/-- Both clauses of POP: a register that is not SP, and SP. -/
theorem witness_pop_clauses : (0 : RegIdx) ≠ spIdx ∧ (7 : RegIdx) = spIdx := by decide

theorem witness_stack_round_trip : ∃ (s t u : State) (rs rd : RegIdx), rs ≠ spIdx ∧ rd ≠ spIdx ∧
    exec (.push (regByte rs)) s = .next t ∧ u.sp = t.sp ∧
    Memory.read u.mem u.sp.toNat = Memory.read t.mem t.sp.toNat :=
  ⟨stateAt (two 0x2A 0) 0 0 [], _, _, 0, 1, by decide, by decide, rfl, rfl, rfl⟩

/-- Both clauses of CALL, at the boundary addresses 253 and 254. -/
theorem witness_call_clauses : (stateAt (two 0 0) 0 253 []).pc.toNat + 2 ≤ 255 ∧
    255 < (stateAt (two 0 0) 0 254 []).pc.toNat + 2 := by decide

/-- Both values of E for JEQ and JNE. -/
theorem witness_branch_clauses : (stateAt (two 0 0) 1 0 []).fl.getLsbD 0 = true ∧
    (stateAt (two 0 0) 2 0 []).fl.getLsbD 0 = false := by decide

theorem witness_call_return : ∃ (s t u : State) (r : RegIdx), s.pc.toNat + 2 ≤ 255 ∧
    exec (.call (regByte r)) s = .next t ∧ u.sp = t.sp ∧
    Memory.read u.mem u.sp.toNat = Memory.read t.mem t.sp.toNat :=
  ⟨stateAt (two 0 0x0B) 0 253 [], _, _, 1, by decide, rfl, rfl, rfl⟩

/-- Equal and unequal values, each with the flags its CMP leaves. -/
theorem witness_comparison : (∃ s t u : State, exec (.cmp (regByte 0) (regByte 1)) s = .next t ∧ u.fl = t.fl ∧
      s.readReg 0 = s.readReg 1) ∧
    (∃ s t u : State, exec (.cmp (regByte 0) (regByte 1)) s = .next t ∧ u.fl = t.fl ∧
      s.readReg 0 ≠ s.readReg 1) :=
  ⟨⟨stateAt (two 5 5) 0 0 [], _, _, rfl, rfl, rfl⟩, ⟨stateAt (two 5 6) 0 0 [], _, _, rfl, rfl, by decide⟩⟩

/-- A state that meets the invariant with each status. -/
theorem witness_exit_status : State.reset.Inv ∧
    State.Inv { State.reset with status := .halted, cause := some .hlt } ∧
    State.Inv { State.reset with status := .faulted, fault := some ⟨.unknownOpcode, 0, 0⟩ } :=
  ⟨⟨rfl, .inl rfl, by decide, ⟨rfl, rfl⟩⟩, ⟨rfl, .inl rfl, by decide, ⟨by decide, rfl⟩⟩,
    ⟨rfl, .inl rfl, by decide, ⟨rfl, _, rfl, rfl, by decide, by decide, by decide⟩⟩⟩

end Sys2Proof.Tests
end

namespace Sys2Proof

/-! ### The registered opcodes and the dispatcher -/

/-- The list of R60 is the default map's bytes, in the order of the table. -/
theorem registeredOpcodes_eq_map : registeredOpcodes = Mnemonic.all.map Config.opcodeMap := rfl

theorem mem_registeredOpcodes {ir : Byte} : ir ∈ registeredOpcodes ↔ ∃ k, Config.opcodeMap k = ir := by
  simp [registeredOpcodes_eq_map, Mnemonic.mem_all]

/-- The dispatcher finds nothing exactly for the bytes outside the list of R60 (R66). -/
theorem dispatch_eq_none_iff_not_registered {ir : Byte} :
    dispatch Config.opcodeMap ir = none ↔ ir ∉ registeredOpcodes := by
  rw [dispatch_none, mem_registeredOpcodes, not_exists]

/-- The dispatch check comes before any operand is read (R71): only the byte at offset 0 matters. -/
theorem decodeFrom_of_dispatch_none {m : OpcodeMap} {byteAt : Nat → Option Byte} {ir : Byte}
    (h0 : byteAt 0 = some ir) (hd : dispatch m ir = none) :
    decodeFrom m byteAt = .error (.unknownOpcode ir) := by simp [decodeFrom, h0, hd]

end Sys2Proof

namespace Sys2Proof.Machine

/-! ### A step whose fetch fails -/

/-- The opcode byte is read wherever `pc` is in memory (R70). -/
theorem fetchByte_zero {s : State} (h : s.pc.toNat < Config.memSize) : fetchByte s 0 = some (s.byteAt 0) :=
  fetchByte_of_lt s h

/-- A running machine raises what its fetch raises and runs no handler (R78, R81). -/
theorem step_of_fetch_error {s : State} {e : Raised} (hs : s.status = .running) (h : fetch s = .error e) :
    step s = .next (s.raise e) := by simp [step_running hs, stepRunning, h]

theorem fetch_of_not_registered {s : State} (hpc : s.pc.toNat < Config.memSize) (hir : s.byteAt 0 ∉ registeredOpcodes) :
    fetch s = .error (.unknownOpcode (s.byteAt 0)) :=
  fetch_of_error
    (decodeFrom_of_dispatch_none (fetchByte_zero hpc) (dispatch_eq_none_iff_not_registered.mpr hir))

/-- Settles O8: the fetch stops at the dispatch check, and raising writes only the status and the record (R71, R122). -/
theorem unknownOpcodeEndsTheRun : Obligations.UnknownOpcodeEndsTheRun := by
  intro s hs hpc hir
  exact step_of_fetch_error hs (fetch_of_not_registered hpc hir)

end Sys2Proof.Machine

namespace Sys2Proof

/-! ### The ALU's operations as arithmetic and bit by bit (R86 to R94) -/

@[simp] theorem u8_toNat (v : Nat) : (u8 v).toNat = v % 256 := BitVec.toNat_ofNat v 8

end Sys2Proof

namespace Sys2Proof.Machine

theorem aluAdd_toNat (va vb : Byte) : (aluAdd va vb).toNat = (va.toNat + vb.toNat) % 256 := u8_toNat _

theorem aluMul_toNat (va vb : Byte) : (aluMul va vb).toNat = (va.toNat * vb.toNat) % 256 := u8_toNat _

theorem aluAnd_getLsbD (va vb : Byte) (k : Nat) : (aluAnd va vb).getLsbD k = (va.getLsbD k && vb.getLsbD k) :=
  BitVec.getLsbD_and

theorem aluOr_getLsbD (va vb : Byte) (k : Nat) : (aluOr va vb).getLsbD k = (va.getLsbD k || vb.getLsbD k) :=
  BitVec.getLsbD_or

theorem aluXor_getLsbD_iff (va vb : Byte) (k : Nat) :
    (aluXor va vb).getLsbD k = true ↔ va.getLsbD k ≠ vb.getLsbD k := by
  rw [aluXor, BitVec.getLsbD_xor, bne_iff_ne]

/-- The complement needs no reduction: `255 - v` is a byte (R94). -/
theorem aluNot_toNat (v : Byte) : (aluNot v).toNat = 255 - v.toNat := by
  rw [aluNot, u8_toNat]
  omega

/-! ### Handlers whose operand bytes name registers -/

theorem regByte_toNat (r : RegIdx) : (regByte r).toNat = r.val := by
  rw [regByte, BitVec.toNat_ofNat]
  omega

/-- Every register has a legal operand byte (R64). -/
theorem regByte_toNat_lt (r : RegIdx) : (regByte r).toNat < 8 := (regByte_toNat r).trans_lt r.isLt

@[simp] theorem regIdx_regByte (r : RegIdx) : regIdx (regByte r) = r :=
  Fin.ext ((regIdx_val (regByte_toNat_lt r)).trans (regByte_toNat r))

@[simp] theorem withReg_regByte (r : RegIdx) (k : RegIdx → Except Raised State) : withReg (regByte r) k = k r := by
  rw [withReg_of_legal (regByte_toNat_lt r), regIdx_regByte]

@[simp] theorem withRegs_regByte (ra rb : RegIdx) (k : RegIdx → RegIdx → Except Raised State) :
    withRegs (regByte ra) (regByte rb) k = k ra rb := by simp [withRegs]

/-! ### Writing one register and advancing -/

theorem writesOnlyRegs_writeReg_advance (s : State) (r : RegIdx) (v : Byte) (n : Nat) :
    WritesOnlyRegs s ((s.writeReg r v).advance n) [r] := by
  have hregs : RegsKept s ((s.writeReg r v).advance n) [r] := fun q hq => by
    have hne : q ≠ r := by simpa using hq
    simp [hne]
  exact ⟨hregs, fun _ _ => rfl, rfl, rfl, rfl, rfl, rfl⟩

/-- What a two-register operation of the ALU does to registers that exist (R86). -/
theorem aluBinary_completes (op : Byte → Byte → Byte) (s : State) (ra rb : RegIdx) :
    ∃ t, aluBinary op (regByte ra) (regByte rb) s = .next t ∧
      t.readReg ra = op (s.readReg ra) (s.readReg rb) ∧ t.pc = s.pc + 3 ∧ WritesOnlyRegs s t [ra] :=
  ⟨(s.writeReg ra (op (s.readReg ra) (s.readReg rb))).advance 2, by simp [aluBinary], by simp, rfl,
    writesOnlyRegs_writeReg_advance s ra _ 2⟩

theorem execNot_completes (s : State) (r : RegIdx) :
    ∃ t, execNot (regByte r) s = .next t ∧
      t.readReg r = aluNot (s.readReg r) ∧ t.pc = s.pc + 2 ∧ WritesOnlyRegs s t [r] :=
  ⟨(s.writeReg r (aluNot (s.readReg r))).advance 1, by simp [execNot], by simp, rfl,
    writesOnlyRegs_writeReg_advance s r _ 1⟩

theorem exec_add (a b : Byte) (s : State) : exec (.add a b) s = aluBinary aluAdd a b s := rfl

theorem exec_mul (a b : Byte) (s : State) : exec (.mul a b) s = aluBinary aluMul a b s := rfl

theorem exec_and (a b : Byte) (s : State) : exec (.and a b) s = aluBinary aluAnd a b s := rfl

theorem exec_or (a b : Byte) (s : State) : exec (.or a b) s = aluBinary aluOr a b s := rfl

theorem exec_xor (a b : Byte) (s : State) : exec (.xor a b) s = aluBinary aluXor a b s := rfl

theorem exec_not (r : Byte) (s : State) : exec (.not r) s = execNot r s := rfl

/-! ### The statements of the ALU -/

/-- Settles O27: ADD is `aluBinary` of the sum modulo 256 (R88). -/
theorem addWritesTheSumModulo256 : Obligations.AddWritesTheSumModulo256 := by
  refine ⟨fun _ _ => rfl, fun s ra rb => ?_⟩
  obtain ⟨t, ht, hval, hpc, hframe⟩ := aluBinary_completes aluAdd s ra rb
  exact ⟨t, (exec_add _ _ s).trans ht, by rw [hval, aluAdd_toNat], hpc, hframe⟩

/-- Settles O28: MUL is `aluBinary` of the product modulo 256 (R89). -/
theorem mulWritesTheProductModulo256 : Obligations.MulWritesTheProductModulo256 := by
  refine ⟨fun _ _ => rfl, fun s ra rb => ?_⟩
  obtain ⟨t, ht, hval, hpc, hframe⟩ := aluBinary_completes aluMul s ra rb
  exact ⟨t, (exec_mul _ _ s).trans ht, by rw [hval, aluMul_toNat], hpc, hframe⟩

/-- Settles O30: AND is `aluBinary` of the conjunction of the bits (R91). -/
theorem andWritesTheBitwiseAnd : Obligations.AndWritesTheBitwiseAnd := by
  refine ⟨fun _ _ => rfl, fun s ra rb => ?_⟩
  obtain ⟨t, ht, hval, hpc, hframe⟩ := aluBinary_completes aluAnd s ra rb
  exact ⟨t, (exec_and _ _ s).trans ht, fun k _ => by rw [hval, aluAnd_getLsbD], hpc, hframe⟩

/-- Settles O31: OR is `aluBinary` of the disjunction of the bits (R92). -/
theorem orWritesTheBitwiseOr : Obligations.OrWritesTheBitwiseOr := by
  refine ⟨fun _ _ => rfl, fun s ra rb => ?_⟩
  obtain ⟨t, ht, hval, hpc, hframe⟩ := aluBinary_completes aluOr s ra rb
  exact ⟨t, (exec_or _ _ s).trans ht, fun k _ => by rw [hval, aluOr_getLsbD], hpc, hframe⟩

/-- Settles O32: XOR is `aluBinary` of the difference of the bits (R93). -/
theorem xorWritesTheBitwiseDifference : Obligations.XorWritesTheBitwiseDifference := by
  refine ⟨fun _ _ => rfl, fun s ra rb => ?_⟩
  obtain ⟨t, ht, hval, hpc, hframe⟩ := aluBinary_completes aluXor s ra rb
  exact ⟨t, (exec_xor _ _ s).trans ht, fun k _ => by rw [hval, aluXor_getLsbD_iff], hpc, hframe⟩

/-- Settles O33: NOT writes the complement to its one register (R94). -/
theorem notWritesTheComplement : Obligations.NotWritesTheComplement := by
  refine ⟨fun _ => rfl, fun s r => ?_⟩
  obtain ⟨t, ht, hval, hpc, hframe⟩ := execNot_completes s r
  exact ⟨t, (exec_not _ s).trans ht, by rw [hval, aluNot_toNat], hpc, hframe⟩

end Sys2Proof.Machine

namespace Sys2Proof.Machine

/-! ### Load immediate (R100) -/

/-- LDI to a register that exists; the immediate is any byte (R65). -/
theorem execLdi_completes (s : State) (r : RegIdx) (i : Byte) :
    ∃ t, execLdi (regByte r) i s = .next t ∧
      t.readReg r = i ∧ t.pc = s.pc + 3 ∧ WritesOnlyRegs s t [r] :=
  ⟨(s.writeReg r i).advance 2, by simp [execLdi], by simp, rfl, writesOnlyRegs_writeReg_advance s r i 2⟩

theorem exec_ldi (r i : Byte) (s : State) : exec (.ldi r i) s = execLdi r i s := rfl

/-- Settles O37: LDI writes its immediate to its one register and advances over three bytes (R100). -/
theorem ldiWritesTheImmediate : Obligations.LdiWritesTheImmediate := by
  refine ⟨fun _ _ => rfl, fun s r i => ?_⟩
  obtain ⟨t, ht, hval, hpc, hframe⟩ := execLdi_completes s r i
  exact ⟨t, (exec_ldi _ i s).trans ht, hval, hpc, hframe⟩

end Sys2Proof.Machine

namespace Sys2Proof.Machine

/-! ### Jumps and branches (R106, R109 to R111) -/

/-- The 9-bit `pc` holds an 8-bit target without loss (R106). -/
theorem State.jump_pc_toNat (s : State) (v : Byte) : (s.jump v).pc.toNat = v.toNat :=
  BitVec.toNat_setWidth_of_le (by decide)

theorem writesOnlyRegs_jump (s : State) (v : Byte) : WritesOnlyRegs s (s.jump v) [] :=
  ⟨fun _ _ => rfl, fun _ _ => rfl, rfl, rfl, rfl, rfl, rfl⟩

theorem writesOnlyRegs_advance (s : State) (n : Nat) : WritesOnlyRegs s (s.advance n) [] :=
  ⟨fun _ _ => rfl, fun _ _ => rfl, rfl, rfl, rfl, rfl, rfl⟩

theorem exec_jmp_regByte (s : State) (r : RegIdx) : exec (.jmp (regByte r)) s = .next (s.jump (s.readReg r)) := by
  simp [exec, execJmp]

theorem exec_jeq_of_flE {s : State} (h : s.flE = true) (r : RegIdx) :
    exec (.jeq (regByte r)) s = .next (s.jump (s.readReg r)) := by simp [exec, execJeq, h]

theorem exec_jeq_of_not_flE {s : State} (h : s.flE = false) (r : RegIdx) :
    exec (.jeq (regByte r)) s = .next (s.advance 1) := by simp [exec, execJeq, h]

theorem exec_jne_of_flE {s : State} (h : s.flE = true) (r : RegIdx) :
    exec (.jne (regByte r)) s = .next (s.advance 1) := by simp [exec, execJne, h]

theorem exec_jne_of_not_flE {s : State} (h : s.flE = false) (r : RegIdx) :
    exec (.jne (regByte r)) s = .next (s.jump (s.readReg r)) := by simp [exec, execJne, h]

/-- Settles O44: JMP is the jump to the register's value (R109). -/
theorem jmpGoesToTheRegisterValue : Obligations.JmpGoesToTheRegisterValue :=
  ⟨fun _ => rfl, fun s r =>
    ⟨_, exec_jmp_regByte s r, s.jump_pc_toNat _, writesOnlyRegs_jump s _⟩⟩

/-- Settles O45, by the value of E: JEQ is the jump when it is 1 and the advance over two bytes when it is 0 (R110). -/
theorem jeqJumpsExactlyWhenEqualIsSet : Obligations.JeqJumpsExactlyWhenEqualIsSet := by
  refine ⟨fun _ => rfl, fun s r => ?_⟩
  cases hE : s.fl.getLsbD 0 with
  | true => exact ⟨_, exec_jeq_of_flE hE r, fun _ => s.jump_pc_toNat _, nofun, writesOnlyRegs_jump s _⟩
  | false => exact ⟨_, exec_jeq_of_not_flE hE r, nofun, fun _ => rfl, writesOnlyRegs_advance s 1⟩

/-- Settles O46, by the value of E: JNE is the jump when it is 0 and the advance over two bytes when it is 1 (R111). -/
theorem jneJumpsExactlyWhenEqualIsClear : Obligations.JneJumpsExactlyWhenEqualIsClear := by
  refine ⟨fun _ => rfl, fun s r => ?_⟩
  cases hE : s.fl.getLsbD 0 with
  | true => exact ⟨_, exec_jne_of_flE hE r, nofun, fun _ => rfl, writesOnlyRegs_advance s 1⟩
  | false => exact ⟨_, exec_jne_of_not_flE hE r, fun _ => s.jump_pc_toNat _, nofun, writesOnlyRegs_jump s _⟩

end Sys2Proof.Machine

namespace Sys2Proof

/-! ### Instructions and their encodings (R57 to R63) -/

theorem Instr.operands_length (i : Instr) : i.operands.length = i.mnemonic.operandCount := by cases i <;> rfl

/-- A mnemonic with the operand bytes of an instruction is that instruction (R63). -/
theorem Instr.instr_operands (i : Instr) :
    i.mnemonic.instr ((i.operands)[0]?.getD 0) ((i.operands)[1]?.getD 0) = i := by cases i <;> rfl

/-- The operand bytes are as many of the two given as the format has (R63). -/
theorem Mnemonic.instr_operands (k : Mnemonic) (op1 op2 : Byte) :
    (k.instr op1 op2).operands = [op1, op2].take k.operandCount := by cases k <;> rfl

theorem Mnemonic.operandCount_le_two (k : Mnemonic) : k.operandCount ≤ 2 := by cases k <;> decide

theorem encodeWith_length (m : OpcodeMap) (i : Instr) : (encodeWith m i).length = 1 + i.mnemonic.operandCount := by
  rw [encodeWith, List.length_cons, Instr.operands_length, Nat.add_comm]

/-- Bits 7:6 are the byte divided by 64 (R58). -/
theorem decodeOpcode_operandCount (ir : Byte) : (decodeOpcode ir).operandCount = ir.toNat / 64 := by
  have hlt : ir.toNat < 256 := ir.isLt
  simp only [decodeOpcode, BitVec.extractLsb'_toNat, Nat.shiftRight_eq_div_pow]
  omega

theorem opcodeMap_operandCount (k : Mnemonic) : (Config.opcodeMap k).toNat / 64 = k.operandCount := by
  rw [← decodeOpcode_operandCount, opcodeMap_valid.2.1]

theorem opcodeMap_setsPc (k : Mnemonic) : (Config.opcodeMap k).getLsbD 4 = k.setsPc := opcodeMap_valid.2.2 k

/-! ### Decoding succeeds exactly on an encoding -/

section
variable {m : OpcodeMap} {byteAt : Nat → Option Byte} {i : Instr}

/-- The operand fetch finds the operand bytes that lie after the opcode (R73). -/
theorem operandAt_of_operands {ops : List Byte} (h : ∀ (j : Nat) (hj : j < ops.length), byteAt (j + 1) = some ops[j])
    (j : Nat) : operandAt byteAt ops.length (j + 1) = .ok (ops[j]?.getD 0) := by
  rcases Nat.lt_or_ge j ops.length with hj | hj
  · rw [operandAt_some hj (h j hj), List.getElem?_eq_getElem hj, Option.getD_some]
  · rw [operandAt_of_gt (by omega), List.getElem?_eq_none hj, Option.getD_none]

theorem decodeFrom_of_encoding (hm : m.Valid)
    (h : ∀ (k : Nat) (hk : k < (encodeWith m i).length), byteAt k = some (encodeWith m i)[k]) :
    decodeFrom m byteAt = .ok i := by
  obtain ⟨hinj, hcount, -⟩ := hm
  have hir : byteAt 0 = some (m i.mnemonic) := h 0 (Nat.succ_pos _)
  have hops := operandAt_of_operands fun j hj => h (j + 1) (Nat.succ_lt_succ hj)
  have hn : (decodeOpcode (m i.mnemonic)).operandCount = i.operands.length :=
    (hcount _).trans i.operands_length.symm
  simp only [decodeFrom, hir, dispatch_map hinj, hn, hops 0, hops 1, i.instr_operands]

theorem encoding_of_decodeFrom (hm : m.Valid) (h : decodeFrom m byteAt = .ok i) (k : Nat)
    (hk : k < (encodeWith m i).length) : byteAt k = some (encodeWith m i)[k] := by
  obtain ⟨ir, kind, op1, op2, hir, hd, h1, h2, rfl⟩ := decodeFrom_ok h
  obtain rfl := dispatch_some hd
  obtain ⟨-, hcount, -⟩ := hm
  rw [encodeWith_length, Mnemonic.instr_mnemonic] at hk
  rw [hcount] at h1 h2
  have hn := kind.operandCount_le_two
  simp only [encodeWith, Mnemonic.instr_mnemonic, Mnemonic.instr_operands]
  match k with
  | 0 => exact hir
  | 1 =>
    rcases operandAt_ok h1 with ⟨-, hb⟩ | ⟨hlt, -⟩
    · simpa using hb
    · omega
  | 2 =>
    rcases operandAt_ok h2 with ⟨-, hb⟩ | ⟨hlt, -⟩
    · simpa using hb
    · omega
  | _ + 3 => omega

/-- Decoding gives an instruction exactly when its encoding stands at the head (R60 to R63). -/
theorem decodeFrom_eq_ok_iff (hm : m.Valid) :
    decodeFrom m byteAt = .ok i ↔
      ∀ (k : Nat) (hk : k < (encodeWith m i).length), byteAt k = some (encodeWith m i)[k] :=
  ⟨encoding_of_decodeFrom hm, decodeFrom_of_encoding hm⟩

/-- Decoding reads no byte but those at offsets 0, 1 and 2 (R62). -/
theorem decodeFrom_congr {byteAt' : Nat → Option Byte} (h : ∀ k ≤ 2, byteAt k = byteAt' k) :
    decodeFrom m byteAt = decodeFrom m byteAt' := by
  simp only [decodeFrom, operandAt, h 0 (by decide), h 1 (by decide), h 2 (by decide)]

theorem operandAt_ne_unknownOpcode (n k : Nat) (b : Byte) : operandAt byteAt n k ≠ .error (.unknownOpcode b) := by
  unfold operandAt
  split
  · cases byteAt k <;> simp
  · simp

/-- A registered opcode is never refused as unknown, whatever its operand fetch does (R71). -/
theorem decodeFrom_ne_unknownOpcode {ir : Byte} {k : Mnemonic} (hir : byteAt 0 = some ir)
    (hd : dispatch m ir = some k) (b : Byte) : decodeFrom m byteAt ≠ .error (.unknownOpcode b) := by
  simp only [decodeFrom, hir, hd]
  split
  · next e he => exact fun h => operandAt_ne_unknownOpcode _ _ b (he.trans (congrArg _ (Except.error.inj h)))
  · split
    · next e he => exact fun h => operandAt_ne_unknownOpcode _ _ b (he.trans (congrArg _ (Except.error.inj h)))
    · nofun

end

/-! ### The statements about encoding -/

theorem decode_eq_decodeFrom (bytes : List Byte) : decode bytes = decodeFrom Config.opcodeMap fun k => bytes[k]? := rfl

/-- Settles O1: the bytes of an encoding with a rest after it are those of the encoding. -/
theorem decodeInvertsEncodeForEveryValidMap : Obligations.DecodeInvertsEncodeForEveryValidMap := by
  intro m hm i rest
  refine (decodeFrom_eq_ok_iff hm).mpr fun k hk => ?_
  rw [List.getElem?_append_left hk, List.getElem?_eq_getElem hk]

/-- Settles O2: the encoding that the decoder found is an initial segment of the bytes. -/
theorem decodedBytesBeginWithTheEncoding : Obligations.DecodedBytesBeginWithTheEncoding := by
  intro m hm bytes i h
  obtain ⟨rest, hrest⟩ := List.prefix_iff_getElem?.mpr ((decodeFrom_eq_ok_iff hm).mp h)
  exact ⟨rest, hrest.symm⟩

/-- Decoding inverts encoding under the default map of R60. -/
theorem decode_encode (i : Instr) : decode (encode i) = .ok i := by
  simpa [decode, encode] using decodeInvertsEncodeForEveryValidMap _ opcodeMap_valid i []

/-- Settles O3: each row of the table is the encoding of its instruction. -/
theorem tableBytesDecodeToTheirInstructions : Obligations.TableBytesDecodeToTheirInstructions := fun a b =>
  ⟨decode_encode .hlt, decode_encode .ret, decode_encode (.push a), decode_encode (.pop a), decode_encode (.prn a),
    decode_encode (.call a), decode_encode (.jmp a), decode_encode (.jeq a), decode_encode (.jne a),
    decode_encode (.not a), decode_encode (.ldi a b), decode_encode (.add a b), decode_encode (.mul a b),
    decode_encode (.mod a b), decode_encode (.cmp a b), decode_encode (.and a b), decode_encode (.or a b),
    decode_encode (.xor a b), decode_encode (.shl a b), decode_encode (.shr a b)⟩

/-- Settles O4: the answer unknownOpcode comes from the dispatcher alone, which knows the bytes of the list (R66). -/
theorem exactlyUnregisteredBytesAreUnknown : Obligations.ExactlyUnregisteredBytesAreUnknown := by
  intro ir rest
  rw [← dispatch_eq_none_iff_not_registered, decode_eq_decodeFrom]
  refine ⟨fun h => ?_, fun h => decodeFrom_of_dispatch_none rfl h⟩
  cases hd : dispatch Config.opcodeMap ir with
  | none => rfl
  | some k => exact absurd h (decodeFrom_ne_unknownOpcode rfl hd ir)

end Sys2Proof

namespace Sys2Proof.Machine

/-! ### What a fetch answers (R70 to R73) -/

theorem decodeOpcode_of_dispatch {ir : Byte} {k : Mnemonic} (hd : dispatch Config.opcodeMap ir = some k) :
    (decodeOpcode ir).operandCount = k.operandCount := by
  rw [decodeOpcode_operandCount, ← dispatch_some hd, opcodeMap_operandCount]

theorem fetchByte_eq_byteAt {s : State} {k : Nat} (h : s.pc.toNat + k < Config.memSize) :
    fetchByte s k = some (s.byteAt k) := fetchByte_of_lt s h

/-- A fetch gives an instruction exactly when its encoding lies in memory at `pc`. -/
theorem fetch_eq_ok_iff {s : State} {i : Instr} :
    fetch s = .ok i ↔ ∀ (k : Nat) (hk : k < (encode i).length), fetchByte s k = some (encode i)[k] :=
  ⟨fun h => (decodeFrom_eq_ok_iff opcodeMap_valid).mp (fetch_ok h),
    fun h => fetch_of_decode ((decodeFrom_eq_ok_iff opcodeMap_valid).mpr h)⟩

/-- A fetched instruction lies wholly in memory, and its bytes are the ones at `pc`. -/
theorem fetch_ok_byteAt {s : State} {i : Instr} (h : fetch s = .ok i) (k : Nat) (hk : k < (encode i).length) :
    s.pc.toNat + k < Config.memSize ∧ s.byteAt k = (encode i)[k] := by
  obtain ⟨hlt, hb⟩ := fetchByte_some (fetch_eq_ok_iff.mp h k hk)
  exact ⟨hlt, hb.symm⟩

theorem fetch_ok_opcode {s : State} {i : Instr} (h : fetch s = .ok i) : s.byteAt 0 = Config.opcodeMap i.mnemonic :=
  (fetch_ok_byteAt h 0 (Nat.succ_pos _)).2

theorem fetch_ok_fits {s : State} {i : Instr} (h : fetch s = .ok i) :
    s.pc.toNat + i.mnemonic.operandCount < Config.memSize :=
  (fetch_ok_byteAt h i.mnemonic.operandCount (by rw [encode, encodeWith_length]; omega)).1

/-- The bytes at `pc` that an instruction of the mnemonic found there has are its encoding (R63). -/
theorem encode_instr_byteAt {s : State} {k : Mnemonic} (hd : dispatch Config.opcodeMap (s.byteAt 0) = some k) :
    encode (k.instr (s.byteAt 1) (s.byteAt 2)) = [s.byteAt 0, s.byteAt 1, s.byteAt 2].take (k.operandCount + 1) := by
  rw [encode, encodeWith, Mnemonic.instr_mnemonic, Mnemonic.instr_operands, dispatch_some hd, List.take_succ_cons]

theorem fetch_of_fits {s : State} {k : Mnemonic} (hd : dispatch Config.opcodeMap (s.byteAt 0) = some k)
    (hfits : s.pc.toNat + k.operandCount < Config.memSize) : fetch s = .ok (k.instr (s.byteAt 1) (s.byteAt 2)) := by
  refine fetch_eq_ok_iff.mpr fun j hj => ?_
  have hlen : j ≤ k.operandCount := by
    rw [encode, encodeWith_length, Mnemonic.instr_mnemonic] at hj
    omega
  rw [fetchByte_eq_byteAt (by omega)]
  have hn := k.operandCount_le_two
  simp only [encode_instr_byteAt hd, List.getElem_take]
  match j with
  | 0 | 1 | 2 => rfl
  | _ + 3 => omega

theorem fetch_of_pc_ge {s : State} (h : Config.memSize ≤ s.pc.toNat) :
    fetch s = .error (.outOfBounds .fetch s.pc.toNat) :=
  fetch_of_error (e := .missingByte 0) (by simp [decodeFrom, fetchByte_of_ge s (k := 0) h])

section
variable {s : State} {k : Mnemonic}

theorem fetch_of_missing_op1 (hpc : s.pc.toNat < Config.memSize)
    (hd : dispatch Config.opcodeMap (s.byteAt 0) = some k) (hk : 1 ≤ k.operandCount)
    (h1 : Config.memSize ≤ s.pc.toNat + 1) : fetch s = .error (.outOfBounds .operand (s.pc.toNat + 1)) := by
  have hop : operandAt (fetchByte s) k.operandCount 1 = .error (.missingByte 1) :=
    operandAt_none hk (fetchByte_of_ge s h1)
  refine fetch_of_error (e := .missingByte 1) ?_
  simp only [decodeFrom, fetchByte_zero hpc, hd, decodeOpcode_of_dispatch hd, hop]

theorem fetch_of_missing_op2 (hpc : s.pc.toNat + 1 < Config.memSize)
    (hd : dispatch Config.opcodeMap (s.byteAt 0) = some k) (hk : 2 ≤ k.operandCount)
    (h2 : Config.memSize ≤ s.pc.toNat + 2) : fetch s = .error (.outOfBounds .operand (s.pc.toNat + 2)) := by
  have hop1 : operandAt (fetchByte s) k.operandCount 1 = .ok (s.byteAt 1) :=
    operandAt_some (by omega) (fetchByte_eq_byteAt hpc)
  have hop2 : operandAt (fetchByte s) k.operandCount 2 = .error (.missingByte 2) :=
    operandAt_none hk (fetchByte_of_ge s h2)
  refine fetch_of_error (e := .missingByte 2) ?_
  simp only [decodeFrom, fetchByte_zero (Nat.lt_of_succ_lt hpc), hd, decodeOpcode_of_dispatch hd, hop1, hop2]

end

/-- What a failed fetch raises is a fatal error whose record the table of R117 and R118 allows. -/
theorem raise_of_fetch_error {s : State} {e : Raised} (h : fetch s = .error e) :
    ∃ err d, s.raise e = s.faultWith err d ∧ FaultRecord.Legal ⟨err, s.pc, d⟩ s.mem := by
  have raised : ∀ {e'}, fetch s = .error e' → e = e' := fun h' => Except.error.inj (h.symm.trans h')
  rcases Nat.lt_or_ge s.pc.toNat Config.memSize with hpc | hpc
  · cases hd : dispatch Config.opcodeMap (s.byteAt 0) with
    | none =>
      obtain rfl := raised (fetch_of_not_registered hpc (dispatch_eq_none_iff_not_registered.mp hd))
      exact ⟨_, _, rfl, hpc, rfl, hd⟩
    | some k =>
      rcases Nat.lt_or_ge (s.pc.toNat + k.operandCount) Config.memSize with hfits | hlong
      · exact absurd (h.symm.trans (fetch_of_fits hd hfits)) nofun
      · have hn := k.operandCount_le_two
        rcases Nat.lt_or_ge (s.pc.toNat + 1) Config.memSize with h1 | h1
        · have h2 : Config.memSize ≤ s.pc.toNat + 2 := by omega
          obtain rfl := raised (fetch_of_missing_op2 h1 hd (by omega) h2)
          exact ⟨_, _, rfl, hpc, h2, .inr rfl⟩
        · obtain rfl := raised (fetch_of_missing_op1 hpc hd (by omega) h1)
          exact ⟨_, _, rfl, hpc, h1, .inl rfl⟩
  · obtain rfl := raised (fetch_of_pc_ge hpc)
    exact ⟨_, _, rfl, hpc, rfl⟩

/-! ### A step that runs the instruction at `pc` -/

theorem step_of_fetch {s : State} {i : Instr} (hs : s.status = .running) (h : fetch s = .ok i) : step s = exec i s := by
  simp [step_running hs, stepRunning, h]

/-- The bytes of memory at `pc`, cut at its end, are what the fetch reads at the offsets an instruction has. -/
theorem take_byteAt_eq_fetchByte (s : State) {k : Nat} (hk : k ≤ 2) :
    ([s.byteAt 0, s.byteAt 1, s.byteAt 2].take (256 - s.pc.toNat))[k]? = fetchByte s k := by
  rw [List.getElem?_take]
  rcases Nat.lt_or_ge (s.pc.toNat + k) 256 with h | h
  · rw [if_pos (by omega), fetchByte_eq_byteAt h]
    match k with
    | 0 | 1 | 2 => rfl
    | _ + 3 => omega
  · rw [if_neg (by omega), fetchByte_of_ge s h]

/-- Settles O5: decoding the bytes at `pc` is the fetch. -/
theorem stepRunsTheDecodedInstruction : Obligations.StepRunsTheDecodedInstruction := by
  intro s i hs h
  rw [decode_eq_decodeFrom, decodeFrom_congr fun _ hk => take_byteAt_eq_fetchByte s hk] at h
  exact step_of_fetch hs (fetch_of_decode h)

/-- Settles O6: the fetch finds the instruction whose encoding it reads. -/
theorem stepRunsTheEncodedInstruction : Obligations.StepRunsTheEncodedInstruction := by
  intro s i hs hfits hmem
  refine step_of_fetch hs (fetch_eq_ok_iff.mpr fun k hk => ?_)
  rw [fetchByte_of_lt s (show _ < 256 by omega), hmem k hk]

/-- Settles O7: the fetch of the opcode byte is the first phase (R70). -/
theorem fetchBeyondMemoryFaults : Obligations.FetchBeyondMemoryFaults := fun _ hs hpc =>
  step_of_fetch_error hs (fetch_of_pc_ge hpc)

/-! ### The register check (R74) -/

theorem outcomeOf_withReg_of_illegal (s : State) {b : Byte} (hb : 8 ≤ b.toNat) (k : RegIdx → Except Raised State) :
    outcomeOf s (withReg b k) = .next (s.faultWith (.outOfBoundsAccess .register) b.toNat) := by
  rw [withReg_of_illegal hb, outcomeOf_error, State.raise_outOfBounds]

theorem outcomeOf_withReg_of_first_illegal {s : State} {r b : Byte}
    (h : [r].find? (fun r => 7 < r.toNat) = some b) (k : RegIdx → Except Raised State) :
    outcomeOf s (withReg r k) = .next (s.faultWith (.outOfBoundsAccess .register) b.toNat) := by
  obtain rfl : b = r := by simpa using List.mem_of_find?_eq_some h
  have hb : 7 < b.toNat := by simpa using List.find?_some h
  exact outcomeOf_withReg_of_illegal s hb k

/-- The first operand is checked before the second. -/
theorem outcomeOf_withRegs_of_first_illegal {s : State} {r r' b : Byte}
    (h : [r, r'].find? (fun r => 7 < r.toNat) = some b) (k : RegIdx → RegIdx → Except Raised State) :
    outcomeOf s (withRegs r r' k) = .next (s.faultWith (.outOfBoundsAccess .register) b.toNat) := by
  rcases Nat.lt_or_ge 7 r.toNat with hr | hr
  · rw [List.find?_cons_of_pos (by simpa using hr)] at h
    obtain rfl := Option.some.inj h
    exact outcomeOf_withReg_of_illegal s hr _
  · rw [List.find?_cons_of_neg (by simpa using hr)] at h
    rw [withRegs, withReg_of_legal (Nat.lt_succ_of_le hr)]
    exact outcomeOf_withReg_of_first_illegal h _

/-- Settles O10, by the number of register operands of the instruction's format. -/
theorem firstIllegalRegisterByteFaults : Obligations.FirstIllegalRegisterByteFaults := by
  intro s i b h
  cases i with
  | hlt | ret => cases h
  | push | pop | prn | call | jmp | jeq | jne | not | ldi => exact outcomeOf_withReg_of_first_illegal h _
  | add | mul | mod | cmp | and | or | xor | shl | shr => exact outcomeOf_withRegs_of_first_illegal h _

/-- The format says which operand bytes are registers (R63, R74). -/
theorem regOperands_instr (k : Mnemonic) (op1 op2 : Byte) :
    (k.instr op1 op2).regOperands =
      if k.format = .f0 then [] else if k.format = .f2rr then [op1, op2] else [op1] := by cases k <;> rfl

section
variable {k : Mnemonic} {op1 op2 : Byte}

theorem exec_of_illegal_op1 (s : State) (hk : k.format ≠ .f0) (h1 : 7 < op1.toNat) :
    exec (k.instr op1 op2) s = .next (s.faultWith (.outOfBoundsAccess .register) op1.toNat) := by
  refine firstIllegalRegisterByteFaults s _ op1 ?_
  rw [regOperands_instr, if_neg hk]
  split <;> exact List.find?_cons_of_pos (by simpa using h1)

theorem exec_of_illegal_op2 (s : State) (hk : k.format = .f2rr) (h1 : op1.toNat ≤ 7) (h2 : 7 < op2.toNat) :
    exec (k.instr op1 op2) s = .next (s.faultWith (.outOfBoundsAccess .register) op2.toNat) := by
  refine firstIllegalRegisterByteFaults s _ op2 ?_
  rw [regOperands_instr, hk, if_neg nofun, if_pos rfl, List.find?_cons_of_neg (by simpa using h1),
    List.find?_cons_of_pos (by simpa using h2)]

end

/-! ### The order of the phases (R81, R124) -/

theorem operandCount_of_dispatch {ir : Byte} {k : Mnemonic} (hd : dispatch Config.opcodeMap ir = some k) :
    ir.toNat / 64 = k.operandCount := by rw [← decodeOpcode_operandCount, decodeOpcode_of_dispatch hd]

/-- Settles O11: each branch is what the fetch, then the register check, answers there. -/
theorem stepFollowsThePhaseOrder : Obligations.StepFollowsThePhaseOrder := by
  intro s hs
  split
  · next hpc => exact step_of_fetch_error hs (fetch_of_pc_ge hpc)
  · next hpc =>
    have hpc : s.pc.toNat < 256 := Nat.lt_of_not_ge hpc
    split
    · next hd =>
      exact step_of_fetch_error hs (fetch_of_not_registered hpc (dispatch_eq_none_iff_not_registered.mp hd))
    · next k hd =>
      have hn := k.operandCount_le_two
      rw [operandCount_of_dispatch hd]
      split
      · next h1 => exact step_of_fetch_error hs (fetch_of_missing_op1 hpc hd h1.1 h1.2)
      · next h1 =>
        split
        · next h2 => exact step_of_fetch_error hs (fetch_of_missing_op2 (show _ < 256 by omega) hd h2.1 h2.2)
        · next h2 =>
          rw [step_of_fetch hs (fetch_of_fits hd (show _ < 256 by omega))]
          split
          · next hr => exact exec_of_illegal_op1 s hr.1 hr.2
          · next hr =>
            split
            · next hr' =>
              exact exec_of_illegal_op2 s hr'.1 (Nat.le_of_not_lt fun h => hr ⟨by simp [hr'.1], h⟩) hr'.2
            · rfl

/-- Settles O9: below 256 the first missing byte is the one at 256, at whichever operand (R73). -/
theorem missingOperandFaults : Obligations.MissingOperandFaults := by
  intro s hs hpc hir hlong
  obtain ⟨k, hk⟩ := mem_registeredOpcodes.mp hir
  have hd : dispatch Config.opcodeMap (s.byteAt 0) = some k := by rw [← hk, dispatch_map opcodeMap_valid.1]
  rw [operandCount_of_dispatch hd] at hlong
  have hn := k.operandCount_le_two
  rcases Nat.lt_or_ge (s.pc.toNat + 1) 256 with h1 | h1
  · have h256 : s.pc.toNat + 2 = 256 := by omega
    rw [step_of_fetch_error hs (fetch_of_missing_op2 h1 hd (by omega) h256.ge), h256]
    rfl
  · have h256 : s.pc.toNat + 1 = 256 := by omega
    rw [step_of_fetch_error hs (fetch_of_missing_op1 hpc hd (by omega) h256.ge), h256]
    rfl

/-- Settles O12: a running machine runs what it fetched or raises, and every handler answers a next state. -/
theorem machineStepsExactlyWhileRunning : Obligations.MachineStepsExactlyWhileRunning := by
  refine fun s => ⟨fun ⟨t, ht⟩ => (step_next ht).1, fun hs => ?_⟩
  cases hf : fetch s with
  | ok i => exact (step_of_fetch hs hf).symm ▸ exists_exec i s
  | error e => exact ⟨_, step_of_fetch_error hs hf⟩

end Sys2Proof.Machine

namespace Sys2Proof.Machine

/-! ### What an instruction can do: one inversion lemma for `exec` -/

/-- The instructions that write a result to the register of their first operand byte `a`, and to no other place (R86 to
R96, R100). -/
def WritesDestination (i : Instr) (a : Byte) : Prop :=
  i = .not a ∨
    ∃ b, i ∈ [Instr.ldi a b, .add a b, .mul a b, .mod a b, .and a b, .or a b, .xor a b, .shl a b, .shr a b]

/-- Everything that running an instruction can make of a state: the two fatal errors of phases 5 and 6, the two ways to
halt, a result in the destination register, and the effects of CMP, PRN and the instructions that use SP or set `pc`. -/
inductive Effect : Instr → State → State → Prop
  | registerFault {i : Instr} {s : State} {b : Byte} (hb : 8 ≤ b.toNat) :
    Effect i s (s.faultWith (.outOfBoundsAccess .register) b.toNat)
  | returnAddressFault {r : Byte} {s : State} (hpc : 255 < s.pc.toNat + 2) :
    Effect (.call r) s (s.faultWith (.outOfBoundsAccess .returnAddress) (s.pc.toNat + 2))
  | divZero {a b : Byte} {s : State} (hb : b.toNat < 8) (hz : s.readReg (regIdx b) = 0) :
    Effect (.mod a b) s (s.halt .divZero)
  | hlt {s : State} : Effect .hlt s ((s.advance 0).halt .hlt)
  | result {i : Instr} {s : State} {a : Byte} (v : Byte) (hi : WritesDestination i a) (ha : a.toNat < 8) :
    Effect i s ((s.writeReg (regIdx a) v).advance i.mnemonic.operandCount)
  | compare {a b : Byte} {s : State} (va vb : Byte) : Effect (.cmp a b) s ((s.writeFl (compareFlags va vb)).advance 2)
  | print {r : Byte} {s : State} (hr : r.toNat < 8) : Effect (.prn r) s ((s.emit (s.readReg (regIdx r))).advance 1)
  | push {r : Byte} {s : State} (v : Byte) :
    Effect (.push r) s (({ s.decSp with mem := Memory.write s.mem s.decSp.sp.toNat v } : State).advance 1)
  | pop {r : Byte} {s : State} (v : Byte) : Effect (.pop r) s ((s.writeReg (regIdx r) v).incSp.advance 1)
  | call {r : Byte} {s : State} (v target : Byte) :
    Effect (.call r) s (({ s.decSp with mem := Memory.write s.mem s.decSp.sp.toNat v } : State).jump target)
  | ret {s : State} (target : Byte) : Effect .ret s (s.jump target).incSp
  | jump {i : Instr} {s : State} (r target : Byte) (hi : i = .jmp r ∨ i = .jeq r ∨ i = .jne r) :
    Effect i s (s.jump target)
  | fallThrough {i : Instr} {s : State} (r : Byte) (hi : i = .jeq r ∨ i = .jne r) : Effect i s (s.advance 1)

section
variable {i : Instr} {s t : State} {a b r : Byte}

theorem RegisterFault.effect (h : RegisterFault s t r) : Effect i s t := by
  obtain ⟨hr, rfl⟩ := h
  exact .registerFault hr

theorem RegisterFault.effect₂ (h : RegisterFault s t a ∨ RegisterFault s t b) : Effect i s t :=
  h.elim RegisterFault.effect RegisterFault.effect

/-- The seven instructions that are `aluBinary` of their operation. -/
theorem effect_of_aluBinary {op : Byte → Byte → Byte} (hi : WritesDestination i a)
    (hn : i.mnemonic.operandCount = 2) (h : aluBinary op a b s = .next t) : Effect i s t := by
  rcases aluBinary_cases h with hf | ⟨ha, -, rfl⟩
  · exact RegisterFault.effect₂ hf
  · exact hn ▸ .result _ hi ha

theorem writesDestination_of_mem
    (h : i ∈ [Instr.ldi a b, .add a b, .mul a b, .mod a b, .and a b, .or a b, .xor a b, .shl a b, .shr a b]) :
    WritesDestination i a := .inr ⟨b, h⟩

end

/-- Everything `exec` can do. -/
theorem effect_of_exec {i : Instr} {s t : State} (h : exec i s = .next t) : Effect i s t := by
  cases i with
  | hlt =>
    obtain rfl := Host.Outcome.next.inj h
    exact .hlt
  | ret =>
    obtain rfl := Host.Outcome.next.inj ((execRet_eq s).symm.trans h)
    exact .ret _
  | push r =>
    rcases execPush_cases h with hf | ⟨-, rfl⟩
    · exact hf.effect
    · exact .push _
  | pop r =>
    rcases execPop_cases h with hf | ⟨-, rfl⟩
    · exact hf.effect
    · exact .pop _
  | prn r =>
    rcases execPrn_cases h with hf | ⟨hr, rfl⟩
    · exact hf.effect
    · exact .print hr
  | call r =>
    rcases execCall_cases h with hf | ⟨-, hpc, rfl⟩ | ⟨-, -, rfl⟩
    · exact hf.effect
    · exact .returnAddressFault hpc
    · exact .call _ _
  | jmp r =>
    rcases execJmp_cases h with hf | ⟨-, rfl⟩
    · exact hf.effect
    · exact .jump r _ (.inl rfl)
  | jeq r =>
    rcases execJeq_cases h with hf | ⟨-, rfl⟩
    · exact hf.effect
    · split
      · exact .jump r _ (.inr (.inl rfl))
      · exact .fallThrough r (.inl rfl)
  | jne r =>
    rcases execJne_cases h with hf | ⟨-, rfl⟩
    · exact hf.effect
    · split
      · exact .fallThrough r (.inr rfl)
      · exact .jump r _ (.inr (.inr rfl))
  | not r =>
    rcases execNot_cases h with hf | ⟨hr, rfl⟩
    · exact hf.effect
    · exact .result _ (.inl rfl) hr
  | ldi r v =>
    rcases execLdi_cases h with hf | ⟨hr, rfl⟩
    · exact hf.effect
    · exact .result _ (writesDestination_of_mem (b := v) (by simp)) hr
  | mod a b =>
    rcases execMod_cases h with hf | ⟨-, hb, hz, rfl⟩ | ⟨ha, -, -, rfl⟩
    · exact RegisterFault.effect₂ hf
    · exact .divZero hb hz
    · exact .result _ (writesDestination_of_mem (b := b) (by simp)) ha
  | cmp a b =>
    rcases execCmp_cases h with hf | ⟨-, -, rfl⟩
    · exact RegisterFault.effect₂ hf
    · exact .compare _ _
  | add a b | mul a b | and a b | or a b | xor a b | shl a b | shr a b =>
    exact effect_of_aluBinary (writesDestination_of_mem (b := b) (by simp)) rfl h

/-- What a step that has a next state did: it ran the instruction it fetched, or it ended in a fatal error whose record
the table of R117 and R118 allows. -/
theorem step_effect {s t : State} (h : step s = .next t) :
    s.status = .running ∧
      ((∃ i, fetch s = .ok i ∧ Effect i s t) ∨
        ∃ err d, t = s.faultWith err d ∧ FaultRecord.Legal ⟨err, s.pc, d⟩ s.mem) := by
  obtain ⟨hs, ⟨i, hf, he⟩ | ⟨e, hf, rfl⟩⟩ := step_next h
  · exact ⟨hs, .inl ⟨i, hf, effect_of_exec he⟩⟩
  · exact ⟨hs, .inr (raise_of_fetch_error hf)⟩

/-! ### Every step keeps the invariant -/

theorem WritesDestination.setsPc {i : Instr} {a : Byte} (h : WritesDestination i a) : i.mnemonic.setsPc = false := by
  obtain rfl | ⟨b, hb⟩ := h
  · rfl
  · simp only [List.mem_cons, List.not_mem_nil, or_false] at hb
    rcases hb with rfl | rfl | rfl | rfl | rfl | rfl | rfl | rfl | rfl <;> rfl

/-- An advance over an instruction that lies in memory is exact: it does not wrap (R28, R76). -/
theorem State.advance_pc_toNat {s : State} {n : Nat} (h : s.pc.toNat + n < Config.memSize) :
    (s.advance n).pc.toNat = s.pc.toNat + 1 + n := by
  have hsum : s.pc.toNat + (1 + n) < 2 ^ Config.pcWidth := by
    change _ < 256 at h
    change _ < 512
    omega
  rw [State.advance_pc, BitVec.toNat_add, BitVec.toNat_ofNat, Nat.add_mod_mod, Nat.mod_eq_of_lt hsum, Nat.add_assoc]

theorem State.jump_pc_le (s : State) (v : Byte) : (s.jump v).pc.toNat ≤ 255 := by
  rw [State.jump_pc_toNat]
  exact Nat.le_of_lt_succ v.isLt

theorem compareFlags_cases (va vb : Byte) :
    compareFlags va vb = 1 ∨ compareFlags va vb = 2 ∨ compareFlags va vb = 4 := by
  unfold compareFlags
  split
  · exact .inl rfl
  · split
    · exact .inr (.inl rfl)
    · exact .inr (.inr rfl)

section
variable {i : Instr} {s t : State}

/-- A store goes to a stack address, which is in memory (R41). -/
theorem Effect.memWf (h : Effect i s t) (hm : Memory.wf s.mem = true) : Memory.wf t.mem = true := by
  cases h with
  | push v | call v => exact Memory.wf_write v hm (sp_lt_memSize s.decSp)
  | _ => exact hm

/-- CMP writes one flag, and nothing else writes FL (R30). -/
theorem Effect.flags (h : Effect i s t) (hf : s.fl = 0 ∨ s.fl = 1 ∨ s.fl = 2 ∨ s.fl = 4) :
    t.fl = 0 ∨ t.fl = 1 ∨ t.fl = 2 ∨ t.fl = 4 := by
  cases h with
  | compare va vb => exact .inr (compareFlags_cases va vb)
  | _ => exact hf

/-- Where `pc` is after an instruction that lay in memory: kept by an error, else advanced over the instruction's bytes,
or for an instruction that sets `pc` the 8-bit target or the instruction after a branch (R76, R106, R122). -/
theorem Effect.pc_cases (h : Effect i s t) (hfits : s.pc.toNat + i.mnemonic.operandCount < Config.memSize) :
    (t.pc = s.pc ∧ (t.status = .faulted ∨ t.cause = some .divZero)) ∨
      (i.mnemonic.setsPc = false ∧ t.pc.toNat = s.pc.toNat + 1 + i.mnemonic.operandCount) ∨
      (i.mnemonic.setsPc = true ∧
        (t.pc.toNat ≤ 255 ∨ (i.mnemonic.operandCount = 1 ∧ t.pc.toNat = s.pc.toNat + 2))) := by
  cases h with
  | registerFault | returnAddressFault => exact .inl ⟨rfl, .inl rfl⟩
  | divZero => exact .inl ⟨rfl, .inr rfl⟩
  | hlt | compare | print | push | pop => exact .inr (.inl ⟨rfl, State.advance_pc_toNat hfits⟩)
  | result _ hi => exact .inr (.inl ⟨hi.setsPc, State.advance_pc_toNat hfits⟩)
  | call _ target | ret target => exact .inr (.inr ⟨rfl, .inl (s.jump_pc_le target)⟩)
  | jump r target hi => rcases hi with rfl | rfl | rfl <;> exact .inr (.inr ⟨rfl, .inl (s.jump_pc_le target)⟩)
  | fallThrough r hi =>
    rcases hi with rfl | rfl <;> exact .inr (.inr ⟨rfl, .inr ⟨rfl, State.advance_pc_toNat hfits⟩⟩)

/-- An instruction that lay in memory leaves `pc` at most MEM_SIZE (R28). -/
theorem Effect.pc_le (h : Effect i s t) (hfits : s.pc.toNat + i.mnemonic.operandCount < Config.memSize) :
    t.pc.toNat ≤ Config.memSize := by
  rcases h.pc_cases hfits with ⟨hpc, -⟩ | ⟨-, hpc⟩ | ⟨-, hpc | ⟨hn, hpc⟩⟩
  · rw [hpc]
    omega
  · omega
  · exact hpc.trans (by decide)
  · omega

/-- How an instruction that ran from a Running state can end: still Running, halted by itself, or in one of its fatal
errors, which the table of R118 allows. -/
theorem Effect.ending (h : Effect i s t) (hpc : s.pc.toNat < Config.memSize) :
    StatusKept s t ∨
      (i = .hlt ∧ t = (s.advance 0).halt .hlt) ∨
      (∃ a b, i = .mod a b ∧ b.toNat < 8 ∧ s.readReg (regIdx b) = 0 ∧ t = s.halt .divZero) ∨
      ∃ err d, t = s.faultWith err d ∧ FaultRecord.Legal ⟨err, s.pc, d⟩ s.mem := by
  cases h with
  | @registerFault _ _ b hb => exact .inr (.inr (.inr ⟨_, _, rfl, hpc, hb, b.isLt⟩))
  | returnAddressFault h255 => exact .inr (.inr (.inr ⟨_, _, rfl, hpc, h255, rfl⟩))
  | divZero hb hz => exact .inr (.inr (.inl ⟨_, _, rfl, hb, hz, rfl⟩))
  | hlt => exact .inr (.inl ⟨rfl, rfl⟩)
  | _ => exact .inl ⟨rfl, rfl, rfl⟩

end

/-- How a step can end. -/
theorem step_ending {s t : State} (h : step s = .next t) :
    StatusKept s t ∨
      (fetch s = .ok .hlt ∧ t = (s.advance 0).halt .hlt) ∨
      (∃ a b, fetch s = .ok (.mod a b) ∧ b.toNat < 8 ∧ s.readReg (regIdx b) = 0 ∧ t = s.halt .divZero) ∨
      ∃ err d, t = s.faultWith err d ∧ FaultRecord.Legal ⟨err, s.pc, d⟩ s.mem := by
  obtain ⟨-, ⟨i, hf, he⟩ | hfault⟩ := step_effect h
  · have hpc : s.pc.toNat < Config.memSize := Nat.lt_of_le_of_lt (Nat.le_add_right _ _) (fetch_ok_fits hf)
    rcases he.ending hpc with hk | ⟨rfl, ht⟩ | ⟨a, b, rfl, hb, hz, ht⟩ | hfault
    · exact .inl hk
    · exact .inr (.inl ⟨hf, ht⟩)
    · exact .inr (.inr (.inl ⟨a, b, hf, hb, hz, ht⟩))
    · exact .inr (.inr (.inr hfault))
  · exact .inr (.inr (.inr hfault))

theorem State.statusAgrees_running {s : State} (hs : s.status = .running) :
    s.StatusAgrees ↔ s.cause = none ∧ s.fault = none := by rw [State.StatusAgrees, hs]

/-- A step leaves status, cause and record in agreement. -/
theorem step_statusAgrees {s t : State} (h : step s = .next t) (ha : s.StatusAgrees) : t.StatusAgrees := by
  have hs := (step_next h).1
  obtain ⟨hcause, hfault⟩ := (State.statusAgrees_running hs).mp ha
  rcases step_ending h with ⟨hstatus, hc, hf⟩ | ⟨-, rfl⟩ | ⟨-, -, -, -, -, rfl⟩ | ⟨err, d, rfl, hlegal⟩
  · exact (State.statusAgrees_running (hstatus.trans hs)).mpr ⟨hc.trans hcause, hf.trans hfault⟩
  · exact ⟨nofun, hfault⟩
  · exact ⟨nofun, hfault⟩
  · exact ⟨hcause, _, rfl, rfl, hlegal⟩

/-- Settles O16: a step is a fatal error, which writes status and record only, or an instruction that keeps each
clause. -/
theorem stepKeepsTheRunInvariant : Obligations.StepKeepsTheRunInvariant := by
  intro s t hinv h
  have hagrees := step_statusAgrees h hinv.statusAgrees
  obtain ⟨-, ⟨i, hf, he⟩ | ⟨err, d, rfl, -⟩⟩ := step_effect h
  · exact ⟨he.memWf hinv.memWf, he.flags hinv.flags, he.pc_le (fetch_ok_fits hf), hagrees⟩
  · exact ⟨hinv.memWf, hinv.flags, hinv.pcBound, hagrees⟩

/-- Settles O13: only a fatal error ends Faulted, since a running machine that keeps its status is still running. -/
theorem fatalErrorWritesOnlyStatusAndRecord : Obligations.FatalErrorWritesOnlyStatusAndRecord := by
  intro s t h hfaulted
  rcases step_ending h with ⟨hstatus, -, -⟩ | ⟨-, rfl⟩ | ⟨-, -, -, -, -, rfl⟩ | ⟨err, d, rfl, -⟩
  · exact absurd (hfaulted.symm.trans (hstatus.trans (step_next h).1)) nofun
  · exact absurd hfaulted nofun
  · exact absurd hfaulted nofun
  · exact ⟨err, d, rfl⟩

theorem regByte_regIdx {b : Byte} (h : b.toNat < 8) : regByte (regIdx b) = b :=
  BitVec.eq_of_toNat_eq ((regByte_toNat _).trans (regIdx_val h))

/-- Settles O14: HLT and a MOD by 0 are the two endings that are Halted, and the fetched bytes name them. -/
theorem onlyHltAndModByZeroHalt : Obligations.OnlyHltAndModByZeroHalt := by
  intro s t h hhalted
  rcases step_ending h with ⟨hstatus, -, -⟩ | ⟨hf, rfl⟩ | ⟨a, b, hf, hb, hz, rfl⟩ | ⟨err, d, rfl, -⟩
  · exact absurd (hhalted.symm.trans (hstatus.trans (step_next h).1)) nofun
  · exact .inl ⟨fetch_ok_opcode hf, rfl⟩
  · have hop2 : s.byteAt 2 = b := (fetch_ok_byteAt hf 2 (Nat.lt_succ_self 2)).2
    exact .inr ⟨fetch_ok_opcode hf, ⟨regIdx b, by rw [hop2, regByte_regIdx hb], hz⟩, rfl⟩
  · exact absurd hhalted nofun

/-- Settles O15: the opcode byte carries the operand count and sets_pc of the instruction that ran (R58, R59). -/
theorem opcodeBitsDecideThePcUpdate : Obligations.OpcodeBitsDecideThePcUpdate := by
  intro s t h hfault hdiv
  obtain ⟨-, ⟨i, hf, he⟩ | ⟨err, d, rfl, -⟩⟩ := step_effect h
  · rw [fetch_ok_opcode hf, opcodeMap_setsPc, opcodeMap_operandCount]
    rcases he.pc_cases (fetch_ok_fits hf) with ⟨-, hend | hend⟩ | ⟨hset, hpc⟩ | ⟨hset, hpc⟩
    · exact absurd hend hfault
    · exact absurd hend hdiv
    · exact ⟨fun _ => hpc, fun hs => absurd (hset.symm.trans hs) nofun⟩
    · exact ⟨fun hs => absurd (hset.symm.trans hs) nofun, fun _ => hpc.imp_right And.right⟩
  · exact absurd rfl hfault

/-! ### What an instruction writes -/

/-- Settles O21: of the effects, only PRN's reaches the output (R35). -/
theorem outputGrowsOnlyByPrn : Obligations.OutputGrowsOnlyByPrn := by
  intro i s t h
  cases effect_of_exec h with
  | @print r _ hr => exact .inr ⟨regIdx r, by rw [regByte_regIdx hr], rfl⟩
  | _ => exact .inl rfl

/-- Settles O22: of the effects, only CMP's reaches FL (R30). -/
theorem onlyCmpWritesFlags : Obligations.OnlyCmpWritesFlags := by
  intro i s t h hfl
  cases effect_of_exec h with
  | @compare a b => exact ⟨a, b, rfl⟩
  | _ => exact absurd rfl hfl

/-- A write that a read at `a` sees was to `a`. -/
theorem Memory.eq_of_read_write_ne {m : Memory} {x a : Nat} {v : Byte}
    (h : Memory.read (Memory.write m x v) a ≠ Memory.read m a) : a = x := by
  by_contra hne
  exact h (by rw [Memory.read_write, if_neg hne])

/-- Settles O24: of the effects, only the stores of PUSH and CALL reach memory (R41). -/
theorem onlyPushAndCallStore : Obligations.OnlyPushAndCallStore := by
  intro i s t a h hread
  cases effect_of_exec h with
  | @push r => exact ⟨Memory.eq_of_read_write_ne hread, r, .inl rfl⟩
  | @call r => exact ⟨Memory.eq_of_read_write_ne hread, r, .inr rfl⟩
  | _ => exact absurd rfl hread

/-- Settles O25: a result reaches SP only in register 7, and the other effects that reach it are the stack's (R22,
R102). -/
theorem onlyStackInstructionsAndDestinationR7ChangeSp :
    Obligations.OnlyStackInstructionsAndDestinationR7ChangeSp := by
  intro i s t h hsp
  cases effect_of_exec h with
  | ret => exact .inl rfl
  | @push r => exact .inr (.inl ⟨r, .inl rfl⟩)
  | @pop r => exact .inr (.inl ⟨r, .inr (.inl rfl)⟩)
  | @call r => exact .inr (.inl ⟨r, .inr (.inr rfl)⟩)
  | @result _ _ a v hi ha =>
    have hidx : spIdx = regIdx a := by
      by_contra hne
      exact hsp (by rw [State.advance_sp, State.writeReg_sp, if_neg hne])
    have h7 : a = 7 := by rw [← regByte_regIdx ha, ← hidx]; rfl
    exact .inr (.inr (h7 ▸ hi))
  | _ => exact absurd rfl hsp

end Sys2Proof.Machine

namespace Sys2Proof.Machine

/-! ### FL is read only through E -/

theorem exec_ret (s : State) : exec .ret s = .next (s.jump (Memory.read s.mem s.sp.toNat)).incSp := execRet_eq s

/-- Whatever next state `o` is, `o'` is the same state with some FL. -/
def SameButFl (o o' : Host.Outcome State Fault Refusal) : Prop := ∀ t, o = .next t → ∃ w, o' = .next (t.writeFl w)

section
variable {s : State} {v : Byte}

theorem SameButFl.ok {t t' : State} (w : Byte) (h : t' = t.writeFl w) :
    SameButFl (outcomeOf s (.ok t)) (outcomeOf (s.writeFl v) (.ok t')) := by
  intro u hu
  obtain rfl := Host.Outcome.next.inj hu
  exact ⟨w, congrArg _ h⟩

theorem State.raise_writeFl (s : State) (v : Byte) (e : Raised) : (s.writeFl v).raise e = (s.raise e).writeFl v := by
  cases e <;> rfl

theorem SameButFl.error (e : Raised) : SameButFl (outcomeOf s (.error e)) (outcomeOf (s.writeFl v) (.error e)) := by
  intro u hu
  obtain rfl := Host.Outcome.next.inj hu
  exact ⟨v, congrArg _ (s.raise_writeFl v e)⟩

/-- The register check does not look at FL. -/
theorem SameButFl.withReg {r : Byte} {k k' : RegIdx → Except Raised State}
    (h : ∀ rr, SameButFl (outcomeOf s (k rr)) (outcomeOf (s.writeFl v) (k' rr))) :
    SameButFl (outcomeOf s (withReg r k)) (outcomeOf (s.writeFl v) (withReg r k')) := by
  rcases Nat.lt_or_ge r.toNat 8 with hr | hr
  · rw [withReg_of_legal hr, withReg_of_legal hr]
    exact h _
  · rw [withReg_of_illegal hr, withReg_of_illegal hr]
    exact .error _

theorem SameButFl.withRegs {a b : Byte} {k k' : RegIdx → RegIdx → Except Raised State}
    (h : ∀ ra rb, SameButFl (outcomeOf s (k ra rb)) (outcomeOf (s.writeFl v) (k' ra rb))) :
    SameButFl (outcomeOf s (withRegs a b k)) (outcomeOf (s.writeFl v) (withRegs a b k')) :=
  .withReg fun ra => .withReg (h ra)

theorem SameButFl.aluBinary (op : Byte → Byte → Byte) (a b : Byte) :
    SameButFl (aluBinary op a b s) (aluBinary op a b (s.writeFl v)) :=
  .withRegs fun _ _ => .ok v rfl

/-- Only JEQ and JNE look at FL, and only at E; CMP writes the same FL whatever it was. -/
theorem sameButFl_exec (i : Instr) (hE : (s.writeFl v).flE = s.flE) : SameButFl (exec i s) (exec i (s.writeFl v)) := by
  cases i with
  | hlt => exact .ok (s := s) (v := v) v rfl
  | ret =>
    rw [exec_ret, exec_ret]
    exact .ok (s := s) (v := v) v rfl
  | prn | jmp | not | ldi => exact .withReg fun _ => .ok v rfl
  | push r =>
    refine .withReg fun rr => ?_
    rw [storeAtSp_eq, storeAtSp_eq]
    exact .ok v rfl
  | pop r =>
    refine .withReg fun rr => ?_
    rw [loadAtSp_eq, loadAtSp_eq]
    exact .ok v rfl
  | cmp => exact .withRegs fun ra rb => .ok (compareFlags (s.readReg ra) (s.readReg rb)) rfl
  | add | mul | and | or | xor | shl | shr => exact .aluBinary _ _ _
  | mod a b =>
    refine .withRegs fun ra rb => ?_
    rw [State.writeFl_readReg]
    split
    · exact .error _
    · exact .ok v rfl
  | call r =>
    refine .withReg fun rr => ?_
    rw [State.writeFl_pc, storeAtSp_eq, storeAtSp_eq]
    split
    · exact .error _
    · exact .ok v rfl
  | jeq r =>
    refine .withReg fun rr => .ok v ?_
    rw [hE]
    split <;> rfl
  | jne r =>
    refine .withReg fun rr => .ok v ?_
    rw [hE]
    split <;> rfl

end

/-- Settles O23: E is bit 0 of FL, the one part of it that an instruction reads (R30). -/
theorem flagsAreReadOnlyThroughEqual : Obligations.FlagsAreReadOnlyThroughEqual :=
  fun i _ t _ h hE => sameButFl_exec i hE t h

/-! ### The results of the ALU that have a special case (R90, R95 to R97) -/

theorem aluMod_toNat (va vb : Byte) : (aluMod va vb).toNat = va.toNat % vb.toNat := by
  rw [aluMod, u8_toNat, Nat.mod_eq_of_lt (Nat.lt_of_le_of_lt (Nat.mod_le _ _) va.isLt)]

theorem aluShl_toNat (va vb : Byte) : (aluShl va vb).toNat = (va.toNat * 2 ^ vb.toNat) % 256 := u8_toNat _

theorem aluShr_toNat (va vb : Byte) : (aluShr va vb).toNat = va.toNat / 2 ^ vb.toNat := by
  rw [aluShr, u8_toNat, Nat.mod_eq_of_lt (Nat.lt_of_le_of_lt (Nat.div_le_self _ _) va.isLt)]

theorem aluShl_of_ge {va vb : Byte} (h : 8 ≤ vb.toNat) : aluShl va vb = 0 := by
  refine BitVec.eq_of_toNat_eq ((aluShl_toNat va vb).trans (Nat.mod_eq_zero_of_dvd ?_))
  exact Dvd.dvd.mul_left (pow_dvd_pow 2 h) _

theorem aluShr_of_ge {va vb : Byte} (h : 8 ≤ vb.toNat) : aluShr va vb = 0 := by
  refine BitVec.eq_of_toNat_eq ((aluShr_toNat va vb).trans (Nat.div_eq_of_lt ?_))
  exact va.isLt.trans_le (Nat.pow_le_pow_right (by decide) h)

theorem exec_mod_of_ne_zero {s : State} {ra rb : RegIdx} (h : s.readReg rb ≠ 0) :
    exec (.mod (regByte ra) (regByte rb)) s =
      .next ((s.writeReg ra (aluMod (s.readReg ra) (s.readReg rb))).advance 2) := by
  simp only [exec, execMod, withRegs_regByte, if_neg h, outcomeOf_ok]

theorem exec_mod_of_zero {s : State} (ra : RegIdx) {rb : RegIdx} (h : s.readReg rb = 0) :
    exec (.mod (regByte ra) (regByte rb)) s = .next (s.halt .divZero) := by
  simp only [exec, execMod, withRegs_regByte, if_pos h, outcomeOf_error, State.raise_divideByZero]

theorem exec_cmp_regByte (s : State) (ra rb : RegIdx) :
    exec (.cmp (regByte ra) (regByte rb)) s =
      .next ((s.writeFl (compareFlags (s.readReg ra) (s.readReg rb))).advance 2) := by simp [exec, execCmp]

/-- Settles O29, by whether the divisor is 0: the remainder is a byte already (R90). -/
theorem modWritesTheRemainderOrHalts : Obligations.ModWritesTheRemainderOrHalts := fun s ra rb =>
  ⟨fun h => ⟨_, exec_mod_of_ne_zero h, by simp [aluMod_toNat], rfl, writesOnlyRegs_writeReg_advance s ra _ 2⟩,
    fun h => exec_mod_of_zero ra h⟩

/-- Settles O34: SHL is `aluBinary` of the shift by the whole amount byte (R95). -/
theorem shlShiftsLeftByTheWholeByte : Obligations.ShlShiftsLeftByTheWholeByte := by
  intro s ra rb
  obtain ⟨t, ht, hval, hpc, hframe⟩ := aluBinary_completes aluShl s ra rb
  exact ⟨t, ht, by rw [hval, aluShl_toNat], fun h => hval.trans (aluShl_of_ge h), hpc, hframe⟩

/-- Settles O35: SHR is `aluBinary` of the logical shift by the whole amount byte (R96). -/
theorem shrShiftsRightByTheWholeByte : Obligations.ShrShiftsRightByTheWholeByte := by
  intro s ra rb
  obtain ⟨t, ht, hval, hpc, hframe⟩ := aluBinary_completes aluShr s ra rb
  exact ⟨t, ht, by rw [hval, aluShr_toNat], fun h => hval.trans (aluShr_of_ge h), hpc, hframe⟩

theorem compareFlags_of_eq {va vb : Byte} (h : va.toNat = vb.toNat) : compareFlags va vb = 1 :=
  if_pos (BitVec.eq_of_toNat_eq h)

theorem compareFlags_of_gt {va vb : Byte} (h : vb.toNat < va.toNat) : compareFlags va vb = 2 := by
  have hne : va ≠ vb := fun e => h.ne (by rw [e])
  rw [compareFlags, if_neg hne, if_pos h]
  rfl

theorem compareFlags_of_lt {va vb : Byte} (h : va.toNat < vb.toNat) : compareFlags va vb = 4 := by
  have hne : va ≠ vb := fun e => h.ne (by rw [e])
  rw [compareFlags, if_neg hne, if_neg h.asymm]
  rfl

/-- Settles O36, by the order of the two values (R97). -/
theorem cmpWritesExactlyOneFlag : Obligations.CmpWritesExactlyOneFlag := fun s ra rb =>
  ⟨_, exec_cmp_regByte s ra rb, compareFlags_of_eq, compareFlags_of_gt, compareFlags_of_lt, rfl, fun _ _ => rfl,
    fun _ _ => rfl, rfl, rfl, rfl, rfl⟩

/-! ### Output and the stack (R101 to R105) -/

theorem exec_prn_regByte (s : State) (r : RegIdx) :
    exec (.prn (regByte r)) s = .next ((s.emit (s.readReg r)).advance 1) := by simp [exec, execPrn]

/-- Settles O38: PRN is the emission of the register's byte, then the advance (R101). -/
theorem prnAppendsTheRegisterToTheOutput : Obligations.PrnAppendsTheRegisterToTheOutput := fun s r =>
  ⟨_, exec_prn_regByte s r, rfl, rfl, fun _ _ => rfl, fun _ _ => rfl, rfl, rfl, rfl, rfl⟩

/-- The state that PUSH and CALL build: `v` stored at the decremented SP. -/
def State.pushed (s : State) (v : Byte) : State := { s.decSp with mem := Memory.write s.mem s.decSp.sp.toNat v }

section
variable (s : State) (v : Byte)

@[simp] theorem State.pushed_readReg (q : RegIdx) : (s.pushed v).readReg q = s.decSp.readReg q := rfl

theorem State.pushed_sp : (s.pushed v).sp = s.sp - 1 := s.decSp_sp

theorem State.read_pushed : Memory.read (s.pushed v).mem s.decSp.sp.toNat = v := by simp [State.pushed]

theorem State.memKept_pushed : MemKept s (s.pushed v) [s.decSp.sp.toNat] := fun a ha => by
  have hne : a ≠ s.decSp.sp.toNat := by simpa using ha
  rw [State.pushed, Memory.read_write, if_neg hne]

theorem State.regsKept_pushed : RegsKept s (s.pushed v) [spIdx] := fun q hq => by
  have hne : q ≠ spIdx := by simpa using hq
  rw [State.pushed_readReg, State.decSp_readReg, if_neg hne]

end

/-- PUSH reads the register after the SP update (R103). -/
theorem exec_push_regByte (s : State) (r : RegIdx) :
    exec (.push (regByte r)) s = .next ((s.pushed (s.decSp.readReg r)).advance 1) := by
  simp [exec, execPush, State.pushed]

/-- CALL reads the target after the SP update (R107). -/
theorem exec_call_of_le {s : State} (h : s.pc.toNat + 2 ≤ 255) (r : RegIdx) :
    exec (.call (regByte r)) s = .next ((s.pushed (u8 (s.pc.toNat + 2))).jump (s.decSp.readReg r)) := by
  simp only [exec, execCall, withReg_regByte, if_neg (Nat.not_lt.mpr h), storeAtSp_eq, outcomeOf_ok]
  rfl

theorem exec_call_of_gt {s : State} (h : 255 < s.pc.toNat + 2) (r : RegIdx) :
    exec (.call (regByte r)) s = .next (s.faultWith (.outOfBoundsAccess .returnAddress) (s.pc.toNat + 2)) := by
  simp [exec, execCall, h]

theorem exec_pop_regByte (s : State) (r : RegIdx) :
    exec (.pop (regByte r)) s = .next ((s.writeReg r (Memory.read s.mem s.sp.toNat)).incSp.advance 1) := by
  simp [exec, execPop]

/-- Settles O39: PUSH is the push of the register as the decremented SP leaves it (R103). -/
theorem pushStoresAtTheDecrementedSp : Obligations.PushStoresAtTheDecrementedSp := fun s r =>
  ⟨_, exec_push_regByte s r, s.pushed_sp (s.decSp.readReg r), (s.read_pushed _).trans (s.decSp_readReg r), rfl,
    s.regsKept_pushed (s.decSp.readReg r), s.memKept_pushed _, rfl, rfl, rfl, rfl, rfl⟩

/-- Settles O42, by whether the return address fits a cell (R107). -/
theorem callPushesTheReturnAddressAndJumps : Obligations.CallPushesTheReturnAddressAndJumps := by
  refine fun s r => ⟨fun h => ⟨_, exec_call_of_le h r, s.pushed_sp (u8 (s.pc.toNat + 2)), ?_, ?_,
    s.regsKept_pushed (u8 (s.pc.toNat + 2)), s.memKept_pushed _, rfl, rfl, rfl, rfl, rfl⟩,
    fun h => exec_call_of_gt h r⟩
  · rw [State.jump_mem, State.read_pushed, u8_toNat]
    omega
  · rw [State.jump_pc_toNat, State.decSp_readReg]

/-- Settles O40: POP writes the register, then increments SP as the write left it (R104). -/
theorem popLoadsFromSpAndIncrementsIt : Obligations.PopLoadsFromSpAndIncrementsIt := by
  refine fun s r => ⟨_, exec_pop_regByte s r, fun hr => ?_, fun hr => ?_, rfl,
    fun q hq => ?_, fun _ _ => rfl, rfl, rfl, rfl, rfl, rfl⟩
  · simp [hr, hr.symm]
  · simp [hr]
  · obtain ⟨hr, hsp⟩ : q ≠ r ∧ q ≠ spIdx := by simpa using hq
    simp [hr, hsp]

/-- Settles O43: RET is the jump to the byte at SP, then the increment (R108). -/
theorem retPopsThePc : Obligations.RetPopsThePc := by
  refine fun s => ⟨_, exec_ret s, s.jump_pc_toNat _, State.incSp_sp _, fun q hq => ?_, fun _ _ => rfl, rfl, rfl, rfl,
    rfl, rfl⟩
  have hne : q ≠ spIdx := by simpa using hq
  simp [hne]

/-- Settles O47: HLT is the advance over its one byte, then the halt (R112, R77). -/
theorem hltHaltsAfterAdvancingThePc : Obligations.HltHaltsAfterAdvancingThePc := ⟨rfl, execHlt_eq⟩

/-! ### Laws about two instructions -/

theorem exec_unique {i : Instr} {s t t' : State} (h : exec i s = .next t) (h' : exec i s = .next t') : t = t' :=
  Host.Outcome.next.inj (h.symm.trans h')

/-- Settles O26: a fetch reads memory as the store left it (R54). -/
theorem pushedByteIsTheNextByteFetchedThere : Obligations.PushedByteIsTheNextByteFetchedThere := by
  intro s r hr
  obtain ⟨t, ht, hsp, hcell, -⟩ := pushStoresAtTheDecrementedSp s r
  refine ⟨t, ht, fun u hmem hpc => ?_⟩
  have hpc' : u.pc.toNat = s.decSp.sp.toNat := by rw [hpc, hsp, State.decSp_sp]
  rw [fetchByte_of_lt u (hpc' ▸ sp_lt_memSize s.decSp), hmem, Nat.add_zero, hpc', hcell, if_neg hr]

/-- Settles O41, from what PUSH leaves at SP and what POP reads there (R105). -/
theorem popAfterPushRestoresValueAndSp : Obligations.PopAfterPushRestoresValueAndSp := by
  intro s t u rs rd hrs hrd ht husp hucell
  obtain ⟨t', ht', htsp, htcell, -⟩ := pushStoresAtTheDecrementedSp s rs
  obtain rfl := exec_unique ht ht'
  obtain ⟨v, hv, hpop, -⟩ := popLoadsFromSpAndIncrementsIt u rd
  obtain ⟨hval, hvsp⟩ := hpop hrd
  refine ⟨v, hv, ?_, ?_⟩
  · rw [hval, hucell, htsp, ← State.decSp_sp, htcell, if_neg hrs]
  · rw [hvsp, husp, htsp, BitVec.sub_add_cancel]

/-- Settles O48, from what CALL leaves at SP and what RET reads there (R113). -/
theorem retAfterCallResumesAfterTheCall : Obligations.RetAfterCallResumesAfterTheCall := by
  intro s t u r hpc ht husp hucell
  obtain ⟨t', ht', htsp, htcell, -⟩ := (callPushesTheReturnAddressAndJumps s r).1 hpc
  obtain rfl := exec_unique ht ht'
  obtain ⟨v, hv, hvpc, hvsp, -⟩ := retPopsThePc u
  refine ⟨v, hv, ?_, ?_⟩
  · rw [hvpc, hucell, htsp, ← State.decSp_sp, htcell]
  · rw [hvsp, husp, htsp, BitVec.sub_add_cancel]

/-- CMP sets E exactly for equal values (R97). -/
theorem compareFlags_equal_iff (va vb : Byte) : (compareFlags va vb).getLsbD 0 = true ↔ va = vb := by
  rcases Nat.lt_trichotomy va.toNat vb.toNat with h | h | h
  · rw [compareFlags_of_lt h]
    exact iff_of_false (by decide) fun e => h.ne (e ▸ rfl)
  · rw [compareFlags_of_eq h]
    exact iff_of_true (by decide) (BitVec.eq_of_toNat_eq h)
  · rw [compareFlags_of_gt h]
    exact iff_of_false (by decide) fun e => h.ne (e ▸ rfl)

/-- Settles O49: the branches test the E that CMP left (R115). -/
theorem branchesFollowTheLastComparison : Obligations.BranchesFollowTheLastComparison := by
  intro s t u ra rb r ht hfl
  obtain rfl := exec_unique (exec_cmp_regByte s ra rb) ht
  have hE : u.fl.getLsbD 0 = true ↔ s.readReg ra = s.readReg rb := by
    rw [hfl]
    exact compareFlags_equal_iff _ _
  obtain ⟨v, hv, hvset, hvclear, -⟩ := jeqJumpsExactlyWhenEqualIsSet.2 u r
  obtain ⟨w, hw, hwclear, hwset, -⟩ := jneJumpsExactlyWhenEqualIsClear.2 u r
  refine ⟨v, w, hv, hw, fun heq => ?_, fun hne => ?_⟩
  · exact ⟨hvset (hE.mpr heq), hwset (hE.mpr heq)⟩
  · have hclear : u.fl.getLsbD 0 = false := Bool.eq_false_iff.mpr (mt hE.mp hne)
    exact ⟨hvclear hclear, hwclear hclear⟩

/-! ### Initial states (R14, R38, R137) -/

theorem init_of_le (rInit : Vector Byte 7) {image : List Byte} (h : image.length ≤ 256) :
    init rInit image = some { State.reset with regs := resetRegs rInit, mem := Memory.place [] 0 image } := if_pos h

/-- Settles O17: memory and FL are 0, `pc` is 0, and the machine is Running. -/
theorem resetMeetsTheRunInvariant : Obligations.ResetMeetsTheRunInvariant :=
  ⟨reset_mem_wf, .inl rfl, Nat.zero_le _, rfl, rfl⟩

/-- Settles O18: an initial state is the reset state but for registers and a placed image (R137). -/
theorem everyInitialStateMeetsTheRunInvariant : Obligations.EveryInitialStateMeetsTheRunInvariant := by
  intro rInit image s h
  obtain ⟨hlen, rfl⟩ := init_some h
  have hwf : Memory.wf (Memory.place [] 0 image) = true := Memory.wf_place rfl (by rwa [Nat.zero_add])
  exact { resetMeetsTheRunInvariant with memWf := hwf }

theorem resetRegs_of_lt (rInit : Vector Byte 7) (r : Fin 7) : (resetRegs rInit)[r.val] = rInit[r] :=
  Vector.getElem_push_lt r.isLt

theorem read_place_zero (image : List Byte) (a : Nat) :
    Memory.read (Memory.place [] 0 image) a = (image[a]?).getD 0 := by
  rw [Memory.read_place]
  rcases Nat.lt_or_ge a image.length with h | h
  · simp [h]
  · simp [Nat.not_lt.mpr h, Config.unwritten]

/-- Settles O19, by whether the image fits (R14). -/
theorem initGivesTheResetValuesAndTheImage : Obligations.InitGivesTheResetValuesAndTheImage := by
  refine fun rInit image => ⟨fun h => ⟨_, init_of_le rInit h, resetRegs_of_lt rInit, ?_, rfl, rfl, rfl, rfl, rfl,
    rfl, read_place_zero image⟩, fun h => if_neg (Nat.not_le.mpr h)⟩
  exact Vector.getElem_push_eq ..

/-! ### The canonical form of memory (R39) -/

theorem Memory.read_cons (c : Host.Cell) (m : Memory) (x : Nat) :
    Memory.read (c :: m) x = if x = c.1 then c.2 else Memory.read m x := rfl

/-- A cell that reads as written is listed. -/
theorem Memory.exists_mem_of_read_ne {m : Memory} {x : Nat} (h : Memory.read m x ≠ Config.unwritten) :
    ∃ c ∈ m, c.1 = x := by
  by_contra hno
  exact h (Memory.read_of_unlisted fun c hc hx => hno ⟨c, hc, hx⟩)

/-- The first listed cell of a canonical memory is the lowest that reads as written. -/
theorem Memory.head_le_of_read_ne {c : Host.Cell} {m : Memory} {x : Nat} (hwf : Memory.wf (c :: m) = true)
    (h : Memory.read (c :: m) x ≠ Config.unwritten) : c.1 ≤ x := by
  obtain ⟨-, -, hlt, -⟩ := Memory.wf_cons.mp hwf
  obtain ⟨d, hd, rfl⟩ := Memory.exists_mem_of_read_ne h
  rcases List.mem_cons.mp hd with rfl | hd
  · exact Nat.le_refl _
  · exact (hlt d hd).le

theorem Memory.read_head_ne {c : Host.Cell} {m : Memory} (hwf : Memory.wf (c :: m) = true) :
    Memory.read (c :: m) c.1 ≠ Config.unwritten := by
  obtain ⟨-, hne, -, -⟩ := Memory.wf_cons.mp hwf
  rwa [Memory.read_cons, if_pos rfl]

/-- The cells after the first do not list its address. -/
theorem Memory.read_tail_head {c : Host.Cell} {m : Memory} (hwf : Memory.wf (c :: m) = true) :
    Memory.read m c.1 = Config.unwritten := by
  obtain ⟨-, -, hlt, -⟩ := Memory.wf_cons.mp hwf
  exact Memory.read_of_unlisted fun d hd => (hlt d hd).ne'

/-- Settles O20, by induction on one list: both begin with the lowest cell that reads as written, and their tails read
alike. -/
theorem canonicalMemoriesThatReadAlikeAreEqual : Obligations.CanonicalMemoriesThatReadAlikeAreEqual := by
  intro m
  induction m with
  | nil =>
    intro n _ hn h
    cases n with
    | nil => rfl
    | cons d n => exact absurd (h d.1).symm (Memory.read_head_ne hn)
  | cons c m ih =>
    intro n hm hn h
    cases n with
    | nil => exact absurd (h c.1) (Memory.read_head_ne hm)
    | cons d n =>
      have haddr : c.1 = d.1 := Nat.le_antisymm
        (Memory.head_le_of_read_ne hm (h d.1 ▸ Memory.read_head_ne hn))
        (Memory.head_le_of_read_ne hn (h c.1 ▸ Memory.read_head_ne hm))
      have hbyte : c.2 = d.2 := by simpa [Memory.read_cons, haddr] using h d.1
      obtain rfl : c = d := Prod.ext haddr hbyte
      have htail : ∀ a, Memory.read m a = Memory.read n a := fun a => by
        by_cases ha : a = c.1
        · rw [ha, Memory.read_tail_head hm, Memory.read_tail_head hn]
        · simpa [Memory.read_cons, ha] using h a
      obtain ⟨-, -, -, hm'⟩ := Memory.wf_cons.mp hm
      obtain ⟨-, -, -, hn'⟩ := Memory.wf_cons.mp hn
      rw [ih n hm' hn' htail]

/-! ### What the outside sees (R136) -/

theorem faultExitStatus_ne_zero : Config.faultExitStatus ≠ 0 := Nat.succ_ne_zero _

/-- Settles O50, by the status: the invariant gives a Faulted state its record. -/
theorem exitStatusIsZeroExactlyForAHalt : Obligations.ExitStatusIsZeroExactlyForAHalt := by
  intro s hinv
  have hagrees := hinv.statusAgrees
  rw [State.StatusAgrees] at hagrees
  cases hs : s.status with
  | running => simp [State.exitStatus, State.diagnostic, State.statusOutputs, hs]
  | halted => simp [State.exitStatus, State.diagnostic, State.statusOutputs, hs]
  | faulted =>
    rw [hs] at hagrees
    obtain ⟨-, r, hr, -⟩ := hagrees
    simp [State.exitStatus, State.diagnostic, State.statusOutputs, hs, hr, faultExitStatus_ne_zero]

end Sys2Proof.Machine
